-- ==== Sys2Proof/Word.lean ====
section
/-! DEFINITION. The word types of the block (00_scope.md R7, R10). -/

namespace Sys2Proof

/-- `DATA_W` = 32 bits: the input payload, `val` and `mag` (R7). -/
abbrev Word := BitVec 32

/-- `BYTE_W` = 8 bits: the output payload (R7). -/
abbrev Byte := BitVec 8

/-- `DIGIT_W` = 4 bits: one slot of the digit buffer (R7, R21). -/
abbrev Slot := BitVec 4

/-- `IDX_W` = 4 bits: `count` and `cursor` (R7). -/
abbrev Index := BitVec 4

/-- `STATE_W` = 3 bits: the `state` register (R7, R56). -/
abbrev StateCode := BitVec 3

/-- The 8-bit step selector `sel` (R57, R60). -/
abbrev Selector := BitVec 8

end Sys2Proof
end

