-- ==== Sys2Proof/Config.lean ====
section
/-! DEFINITION. What is fixed for the machine (00_scope.md R7), the shape of the input pins (10_state.md R27),
and the one free value: what the environment drives on a tick the script does not cover. -/

namespace Sys2Proof

/-- `BUF_CAP`: the number of slots of the digit buffer (R7, R36). -/
abbrev Config.bufCap : Nat := 10

/-- `RADIX` (R7): the only divisor of the block. -/
abbrev Config.radix : Nat := 10

/-- The values of the four input pins at one tick (R27, R28); a stimulus line of R70 is one of these. -/
structure Pins where
  rst      : Bool
  inValid  : Bool
  inData   : Word
  outReady : Bool
deriving DecidableEq, Repr, Inhabited

/-- FREE VALUE (log 4): the pins at tick `k` when the script says nothing about that tick. "They are free inputs of
every step" (R28): there is no body, so nothing can be proved of what the environment does. -/
opaque Config.freePins : Nat → Pins

end Sys2Proof
end

