-- ==== Sys2Proof/Syntax.lean ====
section
/-! DEFINITION. The names of the block: its five states (10_state.md R13) and its twelve operations
(30_encoding.md R62). -/

namespace Sys2Proof

/-- The five states of R13; their codes (R56) are in Decode.lean. -/
inductive Phase where
  | idle | conv | lead | digits | trail
deriving DecidableEq, Repr

/-- The twelve operations of R62, one per row of opcode_table.json. An operation has no operand fields (R57, R71): it
works on the registers and pins its rule names. -/
inductive Instr where
  /-- R160 -/
  | reset
  /-- R76 -/
  | idleWait
  /-- R77 -/
  | accept
  /-- R88 -/
  | convStep
  /-- R89 -/
  | convLast
  /-- R101 -/
  | leadHold
  /-- R102 -/
  | leadSend
  /-- R103 -/
  | digitHold
  /-- R104 -/
  | digitSend
  /-- R105 -/
  | digitLast
  /-- R106 -/
  | trailHold
  /-- R107 -/
  | trailSend
deriving DecidableEq, Repr

end Sys2Proof
end

