-- ==== Sys2Proof/WellFormed.lean ====
section
/-! DEFINITION. Which encodings are well formed. An operation has no operand fields, so every `Instr` is well formed;
what an encoding adds to the operation is the values of the bits the operation does not decode (30_encoding.md R62,
R63), and those must lie on exactly these bits. -/

namespace Sys2Proof

/-- The bits of `sel` the operation ignores: the letters in R62's `encoding` column (`s v r q c`). -/
def ignoredBits : Instr → Selector
  | .reset     => 0b01111111#8   -- 1sssvrqc
  | .idleWait  => 0b00000111#8   -- 00000rqc
  | .accept    => 0b00000111#8   -- 00001rqc
  | .convStep  => 0b00001101#8   -- 0001vr0c
  | .convLast  => 0b00001101#8   -- 0001vr1c
  | .leadHold  => 0b00001011#8   -- 0010v0qc
  | .leadSend  => 0b00001011#8   -- 0010v1qc
  | .digitHold => 0b00001011#8   -- 0011v0qc
  | .digitSend => 0b00001010#8   -- 0011v1q0
  | .digitLast => 0b00001010#8   -- 0011v1q1
  | .trailHold => 0b00001011#8   -- 0100v0qc
  | .trailSend => 0b00001011#8   -- 0100v1qc

/-- `rest` gives values to ignored bits of `i` only. -/
def wellFormed (i : Instr) (rest : Selector) : Bool :=
  (rest &&& ~~~ignoredBits i) == 0#8

/-- A state code that is a state: 0 to 4 (R56). -/
def legalCode (c : StateCode) : Bool :=
  decide (c.toNat ≤ 4)

/-- The selectors R66 gives a meaning: `rst = 1`, or a legal state code in bits 6:4. -/
def legalSelector (w : Selector) : Bool :=
  w.getLsbD 7 || legalCode (w.extractLsb 6 4)

end Sys2Proof
end

