-- ==== Sys2Proof/Decode.lean ====
section
/-! DEFINITION. State codes (30_encoding.md R56), the fields of the step selector (R58, R60), the decoder from the
mask/match table of R62, and the encoder from R62's `encoding` column. -/

namespace Sys2Proof

/-- R56: the code of each state. -/
def Phase.code : Phase → StateCode
  | .idle   => 0#3
  | .conv   => 1#3
  | .lead   => 2#3
  | .digits => 3#3
  | .trail  => 4#3

/-- R56: the state a code stands for; codes 5, 6, 7 are not states. -/
def Phase.ofCode? (c : StateCode) : Option Phase :=
  match c.toNat with
  | 0 => some .idle
  | 1 => some .conv
  | 2 => some .lead
  | 3 => some .digits
  | 4 => some .trail
  | _ => none

/-- R58, R60: `sel = rst ++ state[2:0] ++ in_valid ++ out_ready ++ q_zero ++ cur_zero`, bit 7 first. -/
def selectorWord (rst : Bool) (st : StateCode) (inValid outReady qZero curZero : Bool) : Selector :=
  BitVec.ofBool rst ++ st ++ BitVec.ofBool inValid ++ BitVec.ofBool outReady ++ BitVec.ofBool qZero
    ++ BitVec.ofBool curZero

/-- Field `rst` of format SEL8, bit 7 (R58). -/
def selRst (w : Selector) : Bool := w.getLsbD 7

/-- Field `st` of format SEL8, bits 6:4 (R58). -/
def selSt (w : Selector) : StateCode := w.extractLsb 6 4

/-- Field `iv` of format SEL8, bit 3 (R58). -/
def selIv (w : Selector) : Bool := w.getLsbD 3

/-- Field `or` of format SEL8, bit 2 (R58). -/
def selOr (w : Selector) : Bool := w.getLsbD 2

/-- Field `qz` of format SEL8, bit 1 (R58). -/
def selQz (w : Selector) : Bool := w.getLsbD 1

/-- Field `cz` of format SEL8, bit 0 (R58). -/
def selCz (w : Selector) : Bool := w.getLsbD 0

/-- One row of R62: `sel` selects `instr` when `sel AND mask = pattern`. -/
structure Row where
  instr   : Instr
  mask    : Selector
  pattern : Selector
deriving DecidableEq, Repr

/-- R62, the `mask` and `match` columns, in the table's order. -/
def operationMap : List Row :=
  [⟨.reset, 0x80#8, 0x80#8⟩, ⟨.idleWait, 0xF8#8, 0x00#8⟩, ⟨.accept, 0xF8#8, 0x08#8⟩,
   ⟨.convStep, 0xF2#8, 0x10#8⟩, ⟨.convLast, 0xF2#8, 0x12#8⟩, ⟨.leadHold, 0xF4#8, 0x20#8⟩,
   ⟨.leadSend, 0xF4#8, 0x24#8⟩, ⟨.digitHold, 0xF4#8, 0x30#8⟩, ⟨.digitSend, 0xF5#8, 0x34#8⟩,
   ⟨.digitLast, 0xF5#8, 0x35#8⟩, ⟨.trailHold, 0xF4#8, 0x40#8⟩, ⟨.trailSend, 0xF4#8, 0x44#8⟩]

/-- `sel` matches the row (R60). -/
def Row.selects (r : Row) (w : Selector) : Bool :=
  (w &&& r.mask) == r.pattern

/-- Why a selector selects nothing (R66): `rst = 0` and a code that is not a state. -/
inductive DecodeError where
  /-- Bits 6:4 hold `code`, one of 5, 6, 7, and bit 7 is 0 (93_implementation_defined.md U1). Safe: no meaning is given. -/
  | illegalStateCode (code : StateCode)
deriving DecidableEq, Repr

/-- R60: the operation of the row that matches; a selector no row matches is rejected by name (R66). -/
def decode (w : Selector) : Except DecodeError Instr :=
  match operationMap.find? (fun r => r.selects w) with
  | some r => .ok r.instr
  | none   => .error (.illegalStateCode (selSt w))

/-- The operation together with the values of the bits it does not decode. -/
def decodeFull (w : Selector) : Except DecodeError (Instr × Selector) :=
  match decode w with
  | .ok i    => .ok (i, w &&& ignoredBits i)
  | .error e => .error e

/-- R62, the fixed bits of the `encoding` column, a letter read as 0. -/
def fixedBits : Instr → Selector
  | .reset     => 0b10000000#8
  | .idleWait  => 0b00000000#8
  | .accept    => 0b00001000#8
  | .convStep  => 0b00010000#8
  | .convLast  => 0b00010010#8
  | .leadHold  => 0b00100000#8
  | .leadSend  => 0b00100100#8
  | .digitHold => 0b00110000#8
  | .digitSend => 0b00110100#8
  | .digitLast => 0b00110101#8
  | .trailHold => 0b01000000#8
  | .trailSend => 0b01000100#8

/-- The selector word of operation `i` whose ignored bits have the values `rest`. -/
def encode (i : Instr) (rest : Selector) : Selector :=
  fixedBits i ||| rest

/-- The selector a row of opcode_table.json stands for: `nbits` bits of `w`, every bit above them 0. -/
def tableSelector (nbits w : Nat) : Selector :=
  BitVec.ofNat 8 (w % 2 ^ nbits)

/-- The operation the decoder reads from a word of opcode_table.json; a selector has 8 bits and no more (R57). -/
def decodeTableWord (nbits w : Nat) : Option Instr :=
  if nbits ≤ 8 then
    match decode (tableSelector nbits w) with
    | .ok i    => some i
    | .error _ => none
  else none

end Sys2Proof
end

