-- ==== Sys2Proof/Machine/State.lean ====
section
/-! DEFINITION. The machine's state as plain data (10_state.md R13 to R21), the two channels' transactions so far
(20_memory.md R47), the reasons a step can stop, and the state after reset (R30). -/

namespace Sys2Proof.Machine

/-- The digit buffer `buf[0..9]` (R21, R36): slot index and digit value, indexes strictly rising, every index below
`BUF_CAP`, no entry equal to what an unlisted slot reads as (`Memory.wf` in Ops.lean; logs 1 and 2). -/
abbrev Memory := List (Nat × Slot)

/-- One input transaction: the tick it happened at and the value taken (R45, R47). -/
structure InputTransaction where
  tick  : Nat
  value : Word
deriving DecidableEq, Repr

/-- One output transaction: the tick it happened at and the byte carried (R46, R47). -/
structure OutputTransaction where
  tick : Nat
  byte : Byte
deriving DecidableEq, Repr

/-- The registers of R13 to R19 and the buffer of R21, then the model's own four fields: the pins to come, the tick
number, and the observation so far (logs 4, 5, 6). -/
structure State where
  /-- R13: the sequencing register, 3 bits, coded by R56; codes 5, 6, 7 are no states (log 7). -/
  state  : StateCode
  /-- R14: the stored request value. -/
  val    : Word
  /-- R19: the sign flag. -/
  sign   : Bool
  /-- R15: the part of the magnitude not yet converted, unsigned. -/
  mag    : Word
  /-- R16: digits written for the current request; index of the next slot to fill. -/
  count  : Index
  /-- R17: index of the slot whose digit is on `out_data` in `DIGITS`. -/
  cursor : Index
  /-- R21: the digit buffer. -/
  buf    : Memory
  /-- The pin values of this tick (the head) and of the ticks after it (R28, R70; log 4). -/
  script : List Pins
  /-- R9: the number of the tick to come (log 5). -/
  tick   : Nat
  /-- R47: the input transactions so far, oldest first (log 6). -/
  taken  : List InputTransaction
  /-- R47: the output transactions so far, oldest first (log 6). -/
  sent   : List OutputTransaction
deriving DecidableEq, Repr

/-- "The block raises no exception, trap or fault, synchronous or asynchronous" (R140): there is no fault (log 13). -/
inductive Fault
deriving DecidableEq, Repr

/-- Why a step has no meaning. -/
inductive Refusal where
  /-- Raised by `exec` for an operation that has no meaning yet. Safe. -/
  | notModelled (mnemonic : String)
  /-- Raised by `step` when `rst = 0` and `state` holds 5, 6 or 7 (R66, U1; log 7). Safe: unreachable from a post-reset
  state, and nothing is claimed of what the hardware does there. -/
  | illegalStateCode (code : StateCode)
  /-- Raised by CONV_STEP, CONV_LAST, DIGIT_SEND when the buffer index is 10 to 15 (R40, U3; log 8). Safe: unreachable from
  a post-reset state, and nothing is claimed of what the hardware does there. -/
  | bufferIndex (index : Index)
deriving DecidableEq, Repr

/-- The machine right after a tick with `rst = 1` (R30, R163; log 12): `state = IDLE`. Every other register is unspecified by
the spec and holds the value logs 2 and 3 name; the environment has said nothing and no transaction has happened. -/
def State.reset : State where
  state  := Phase.idle.code
  val    := 0#32
  sign   := false
  mag    := 0#32
  count  := 0#4
  cursor := 0#4
  buf    := []
  script := []
  tick   := 0
  taken  := []
  sent   := []

end Sys2Proof.Machine
end

