-- ==== Sys2Proof/Machine/Flags.lean ====
section
/-! DEFINITION. The flag and the predicates of the block (10_state.md R19, R20). -/

namespace Sys2Proof.Machine

/-- R19, R92: the sign test `w[31]`, 1 iff `s32(w) < 0`. -/
def signOf (w : Word) : Bool := w.getLsbD 31

/-- R20: `q_zero = 1 iff (mag div 10) = 0`. -/
def qZero (mag : Word) : Bool := mag.toNat / Config.radix == 0

/-- R20: `cur_zero = 1 iff cursor = 0`. -/
def curZero (cursor : Index) : Bool := cursor == 0#4

end Sys2Proof.Machine
end

