-- ==== Sys2Proof/Machine/Operands.lean ====
section
/-! DEFINITION. What the operations compute from their operands: two's complement (00_scope.md R10), the magnitude
(41_conversion_engine.md R87), one digit of it (R88, R92), and the byte codes (10_state.md R26, 30_encoding.md R65).
The byte codes and the two's complement formulas are marked by the spec as general knowledge (G1, G3). -/

namespace Sys2Proof.Machine

/-- R10: `s32(w) = u32(w) - 2^32 * w[31]`. -/
def s32 (w : Word) : Int := (w.toNat : Int) - 2 ^ 32 * (if w.getLsbD 31 then 1 else 0)

/-- `|s32(w)|` as a natural number (R87, R120). -/
def magnitude (w : Word) : Nat := (s32 w).natAbs

/-- R87: `w` if `w[31] = 0`, else `(0 - w) mod 2^32`; read unsigned it is the magnitude. -/
def abs32 (w : Word) : Word := if signOf w then 0#32 - w else w

/-- R88, R92: `u32(mag) mod 10`, as a slot value. -/
def lowDigit (mag : Word) : Slot := BitVec.ofNat 4 (mag.toNat % Config.radix)

/-- R88, R92: `u32(mag) div 10`, truncating and unsigned. -/
def quotient (mag : Word) : Word := BitVec.ofNat 32 (mag.toNat / Config.radix)

/-- R65: the byte of `' '`. -/
def spaceByte : Byte := 0x20#8

/-- R65: the byte of `'-'`. -/
def minusByte : Byte := 0x2D#8

/-- R26, R102: the lead byte. -/
def leadByte (sign : Bool) : Byte := if sign then minusByte else spaceByte

/-- R26: `0x30 + zext_8(d)`, the byte of a digit value. -/
def digitByte (d : Slot) : Byte := 0x30#8 + d.zeroExtend 8

end Sys2Proof.Machine
end

