-- ==== Sys2Proof/Machine/Ops.lean ====
section
/-! DEFINITION. The shared operations: the digit buffer (20_memory.md R36 to R43), the input pins (10_state.md R28),
the transactions (R45, R46), control transfer (42_emission_sequencer.md R100), the selector of a tick (30_encoding.md
R60), and the end of a tick (00_scope.md R9). There is no trap entry and no trap return (60_exceptions.md R145). -/

namespace Sys2Proof.Machine

/-! ### The digit buffer -/

/-- What a slot no entry lists reads as. DESIGN CHOICE (log 2): the spec leaves power-on slots unspecified (R30). -/
def Memory.unlisted : Slot := 0#4

/-- The value of slot `i` (R38). -/
def Memory.read : Memory → Nat → Slot
  | [], _ => Memory.unlisted
  | (a, d) :: m, i => if a = i then d else Memory.read m i

/-- `m` without an entry for slot `i`. -/
def Memory.erase : Memory → Nat → Memory
  | [], _ => []
  | (a, d) :: m, i => if a = i then Memory.erase m i else (a, d) :: Memory.erase m i

/-- `m` with an entry for slot `i` before the first greater index. -/
def Memory.insert : Memory → Nat → Slot → Memory
  | [], i, d => [(i, d)]
  | (a, e) :: m, i, d => if i < a then (i, d) :: (a, e) :: m else (a, e) :: Memory.insert m i d

/-- R37: `buf'[i] = d`, every other slot unchanged; the canonical form is kept. -/
def Memory.write (m : Memory) (i : Nat) (d : Slot) : Memory :=
  if d = Memory.unlisted then Memory.erase m i else Memory.insert (Memory.erase m i) i d

/-- The canonical form: indexes strictly rising and below `BUF_CAP`, no entry equal to the unlisted value. -/
def Memory.wf : Memory → Bool
  | [] => true
  | (a, d) :: m =>
    decide (a < Config.bufCap) && decide (d ≠ Memory.unlisted) && m.all (fun c => decide (a < c.1)) && Memory.wf m

/-- `MemRead(i, 1)` (R38); `none` at index 10 to 15, which addresses no storage (R40, R42). -/
def memRead (m : Memory) (i : Index) : Option Slot :=
  if i.toNat < Config.bufCap then some (Memory.read m i.toNat) else none

/-- `MemWrite(i, 1, d)` (R37); `none` at index 10 to 15, which addresses no storage (R40, R42). -/
def memWrite (m : Memory) (i : Index) (d : Slot) : Option Memory :=
  if i.toNat < Config.bufCap then some (Memory.write m i.toNat d) else none

/-! ### The input pins -/

/-- The pins `k` ticks from now: the script's line for that tick, past its end the free value (R28; log 4). -/
def pinsAt (s : State) (k : Nat) : Pins :=
  match s.script[k]? with
  | some p => p
  | none   => Config.freePins (s.tick + k)

/-- The pins sampled at this tick. -/
def pinsNow (s : State) : Pins := pinsAt s 0

/-! ### Control transfer and transactions -/

/-- `state <- X` (R11, R100). -/
def goto (p : Phase) (s : State) : State := { s with state := p.code }

/-- `recv()` (R11, R45): the input transaction of this tick, which takes `in_data`. -/
def recv (s : State) : State :=
  { s with taken := s.taken ++ [⟨s.tick, (pinsNow s).inData⟩] }

/-- `send(b)` (R11, R46): the output transaction of this tick, which carries `b`. -/
def send (b : Byte) (s : State) : State :=
  { s with sent := s.sent ++ [⟨s.tick, b⟩] }

/-- Do `f` to the next state, if there is one. -/
def andThen (o : Host.Outcome State Fault Refusal) (f : State → State) : Host.Outcome State Fault Refusal :=
  match o with
  | .next s    => .next (f s)
  | .fault r   => .fault r
  | .refused r => .refused r

/-- `send(0x30 + MemRead(i, 1))` (R104, R105); refused at index 10 to 15 (R40). -/
def sendSlot (i : Index) (s : State) : Host.Outcome State Fault Refusal :=
  match memRead s.buf i with
  | some d => .next (send (digitByte d) s)
  | none   => .refused (.bufferIndex i)

/-- `MemWrite(count, 1, u32(mag) mod 10); count' = count + 1` (R88, R89); refused when `count` is 10 to 15 (R40). -/
def storeDigit (s : State) : Host.Outcome State Fault Refusal :=
  match memWrite s.buf s.count (lowDigit s.mag) with
  | some m => .next { s with buf := m, count := s.count + 1#4 }
  | none   => .refused (.bufferIndex s.count)

/-! ### One tick -/

/-- R60: the selector formed at this tick from the pre-state and the sampled inputs. -/
def selector (s : State) : Selector :=
  selectorWord (pinsNow s).rst s.state (pinsNow s).inValid (pinsNow s).outReady (qZero s.mag) (curZero s.cursor)

/-- The operation of this tick (R57, R60). -/
def operation (s : State) : Except DecodeError Instr := decode (selector s)

/-- The tick is over: the script's line is used up and the tick number goes up (R9); no register changes. -/
def nextTick (s : State) : State :=
  { s with tick := s.tick + 1, script := s.script.tail }

/-- `mag` with `q_zero` as asked: kept where it already is so, else 0 or 10 (log 10). -/
def magWithQz (mag : Word) (qz : Bool) : Word :=
  if qZero mag = qz then mag else if qz then 0#32 else 10#32

/-- `cursor` with `cur_zero` as asked: kept where it already is so, else 0 or 1 (log 10). -/
def cursorWithCz (cursor : Index) (cz : Bool) : Index :=
  if curZero cursor = cz then cursor else if cz then 0#4 else 1#4

/-- The `in_data` of the script's next line, 0 where there is none (log 10). -/
def scriptData (s : State) : Word :=
  match s.script with
  | p :: _ => p.inData
  | []     => 0#32

/-- `s` with pins and registers such that `selector` is `w` (log 10). -/
def withSelector (s : State) (w : Selector) : State :=
  { s with
    state  := selSt w
    mag    := magWithQz s.mag (selQz w)
    cursor := cursorWithCz s.cursor (selCz w)
    script := ⟨selRst w, selIv w, scriptData s, selOr w⟩ :: s.script.tail }

end Sys2Proof.Machine
end

