-- ==== Sys2Proof/Machine/Acceptor.lean ====
section
/-! DEFINITION. The input acceptor: IDLE_WAIT and ACCEPT (40_input_acceptor.md). -/

namespace Sys2Proof.Machine

/-- IDLE_WAIT (R76): no register changes. -/
def execIdleWait (s : State) : Host.Outcome State Fault Refusal :=
  .next s

/-- ACCEPT (R77): takes `in_data`, its sign and its magnitude; an input transaction. `cursor` and `buf` unchanged. -/
def execAccept (s : State) : Host.Outcome State Fault Refusal :=
  let w := (pinsNow s).inData
  .next (goto .conv { recv s with val := w, sign := signOf w, mag := abs32 w, count := 0#4 })

end Sys2Proof.Machine
end

