-- ==== Sys2Proof/Machine/Conversion.lean ====
section
/-! DEFINITION. The conversion engine: CONV_STEP and CONV_LAST (41_conversion_engine.md). Where step does not
select them, see log 14. -/

namespace Sys2Proof.Machine

/-- CONV_STEP (R88): one digit into slot `count`, `mag' = mag div 10`, `count' = count + 1`; `state` stays. -/
def execConvStep (s : State) : Host.Outcome State Fault Refusal :=
  andThen (storeDigit s) fun t => { t with mag := quotient s.mag }

/-- CONV_LAST (R89): the most significant digit into slot `count`, `mag' = 0`, `cursor' = count`, `count' = count + 1`,
`state' = LEAD`. -/
def execConvLast (s : State) : Host.Outcome State Fault Refusal :=
  andThen (storeDigit s) fun t => goto .lead { t with mag := 0#32, cursor := s.count }

end Sys2Proof.Machine
end

