-- ==== Sys2Proof/Machine/Emission.lean ====
section
/-! DEFINITION. The emission sequencer: LEAD_*, DIGIT_*, TRAIL_* (42_emission_sequencer.md). Where step does not
select them, see log 14. -/

namespace Sys2Proof.Machine

/-- LEAD_HOLD (R101): no register changes; the lead byte stays on offer. -/
def execLeadHold (s : State) : Host.Outcome State Fault Refusal :=
  .next s

/-- LEAD_SEND (R102): sends 0x2D if `sign = 1` else 0x20; `state' = DIGITS`. -/
def execLeadSend (s : State) : Host.Outcome State Fault Refusal :=
  .next (goto .digits (send (leadByte s.sign) s))

/-- DIGIT_HOLD (R103): no register changes; the digit byte stays on offer. -/
def execDigitHold (s : State) : Host.Outcome State Fault Refusal :=
  .next s

/-- DIGIT_SEND (R104): sends `0x30 + MemRead(cursor, 1)`; `cursor' = cursor - 1`; `state` stays. -/
def execDigitSend (s : State) : Host.Outcome State Fault Refusal :=
  andThen (sendSlot s.cursor s) fun t => { t with cursor := s.cursor - 1#4 }

/-- DIGIT_LAST (R105): sends `0x30 + MemRead(0, 1)`; `state' = TRAIL`; `cursor` stays 0. -/
def execDigitLast (s : State) : Host.Outcome State Fault Refusal :=
  andThen (sendSlot 0#4 s) (goto .trail)

/-- TRAIL_HOLD (R106): no register changes; the trail space stays on offer. -/
def execTrailHold (s : State) : Host.Outcome State Fault Refusal :=
  .next s

/-- TRAIL_SEND (R107): sends 0x20; `state' = IDLE`. -/
def execTrailSend (s : State) : Host.Outcome State Fault Refusal :=
  .next (goto .idle (send spaceByte s))

end Sys2Proof.Machine
end

