-- ==== Sys2Proof/Machine/Reset.lean ====
section
/-! DEFINITION. RESET (70_reset_and_hazards.md R160, R161). -/

namespace Sys2Proof.Machine

/-- RESET (R160): `state' = IDLE`, nothing else written, no transaction on either channel (R161), in every state. -/
def execReset (s : State) : Host.Outcome State Fault Refusal :=
  .next (goto .idle s)

end Sys2Proof.Machine
end

