-- ==== Sys2Proof/Machine/Dispatch.lean ====
section
/-! DEFINITION. The operation table: one arm per operation of 30_encoding.md R62. -/

namespace Sys2Proof.Machine

def exec (i : Instr) (s : State) : Host.Outcome State Fault Refusal :=
  match i with
  | .reset => Sys2Proof.Machine.execReset s
  | .idleWait => Sys2Proof.Machine.execIdleWait s
  | .accept => Sys2Proof.Machine.execAccept s
  | .convStep => Sys2Proof.Machine.execConvStep s
  | .convLast => Sys2Proof.Machine.execConvLast s
  | .leadHold => Sys2Proof.Machine.execLeadHold s
  | .leadSend => Sys2Proof.Machine.execLeadSend s
  | .digitHold => Sys2Proof.Machine.execDigitHold s
  | .digitSend => Sys2Proof.Machine.execDigitSend s
  | .digitLast => Sys2Proof.Machine.execDigitLast s
  | .trailHold => Sys2Proof.Machine.execTrailHold s
  | .trailSend => Sys2Proof.Machine.execTrailSend s

end Sys2Proof.Machine
end

