-- ==== Sys2Proof/Machine/Step.lean ====
section
/-! DEFINITION. One tick of the machine (00_scope.md R9, 30_encoding.md R57, R60), and a state whose next tick performs
a given selector. -/

namespace Sys2Proof.Machine

/-- One tick (log 11): form the selector, decode it, perform the operation, end the tick. An illegal state code with `rst = 0`
is refused (R66, U1). -/
def step (s : State) : Host.Outcome State Fault Refusal :=
  match operation s with
  | .ok i => andThen (exec i s) nextTick
  | .error (.illegalStateCode c) => .refused (.illegalStateCode c)

/-- `s` set up so that the very next step forms the selector given by the low `nbits` bits of `w` (log 10): there is no
fetch (R53), the selector is a function of `state`, `mag`, `cursor` and the pins (R60). -/
def State.withFetchWord (s : State) (nbits w : Nat) : State :=
  withSelector s (tableSelector nbits w)

end Sys2Proof.Machine
end

