-- ==== Sys2Proof/Machine/Frame.lean ====
section
/-! DEFINITION. The pure functions of the conversion (41_conversion_engine.md R90, R91) and the frame
(43_frame_contract.md R120): what every realization must send, in no terms of the reference machine. -/

namespace Sys2Proof.Machine

/-- The do-while loop of R90, run at most `fuel + 1` times: digits of `m`, least significant first. -/
def digitsLoop : Nat → Nat → List Nat
  | 0, m => [m % Config.radix]
  | fuel + 1, m =>
    if m / Config.radix = 0 then [m % Config.radix]
    else (m % Config.radix) :: digitsLoop fuel (m / Config.radix)

/-- R90: `digits_lsf(m)`; the loop ends long before the bound `m` on its repetitions is met. -/
def digitsLsf (m : Nat) : List Nat := digitsLoop m m

/-- R90: `digits_msf(m)`, most significant first. -/
def digitsMsf (m : Nat) : List Nat := (digitsLsf m).reverse

/-- R91: `digit_count(m)`. -/
def digitCount (m : Nat) : Nat := (digitsLsf m).length

/-- R120: `0x30 + d` for a digit `d`. -/
def asciiDigit (d : Nat) : Byte := 0x30#8 + BitVec.ofNat 8 d

/-- R120: `lead(v)`. -/
def lead (v : Int) : Byte := if v < 0 then minusByte else spaceByte

/-- R120: `frame(v)`. -/
def frame (v : Int) : List Byte :=
  [lead v] ++ (digitsMsf v.natAbs).map asciiDigit ++ [spaceByte]

/-- The frames of a sequence of values, one after the other (R123, R124). -/
def frames : List Int → List Byte
  | [] => []
  | v :: vs => frame v ++ frames vs

/-- The value of a list of digits, least significant first: the sum of `ds[i] * 10^i` (R90). -/
def digitsValue : List Nat → Nat
  | [] => 0
  | d :: ds => d + Config.radix * digitsValue ds

/-- The digits in slots `0` to `n - 1`, slot 0 first (R39). -/
def bufDigits (m : Memory) (n : Nat) : List Nat :=
  (List.range n).map fun i => (Memory.read m i).toNat

/-- `value(buf, n) = sum over i < n of buf[i] * 10^i` (10_state.md, before R31). -/
def bufValue (m : Memory) : Nat → Nat
  | 0 => 0
  | n + 1 => bufValue m n + (Memory.read m n).toNat * Config.radix ^ n

/-- The values of a list of input transactions, in order (R47, R124). -/
def takenValues (l : List InputTransaction) : List Int := l.map fun x => s32 x.value

/-- The bytes of a list of output transactions, in order (R47, R124). -/
def sentBytes (l : List OutputTransaction) : List Byte := l.map OutputTransaction.byte

/-- Output transactions of the given bytes on consecutive ticks from `t` on (R110, R173). -/
def stamped : Nat → List Byte → List OutputTransaction
  | _, [] => []
  | t, b :: bs => ⟨t, b⟩ :: stamped (t + 1) bs

end Sys2Proof.Machine
end

