-- ==== Sys2Proof/Machine/Outputs.lean ====
section
/-! DEFINITION. The output functions (10_state.md R24 to R26) and the transactions a tick carries (20_memory.md R45,
R46). `none` stands for a value the spec leaves unspecified (U1, U2; log 9). -/

namespace Sys2Proof.Machine

/-- The state the `state` register names; none at codes 5, 6, 7 (R56). -/
def phase? (s : State) : Option Phase := Phase.ofCode? s.state

/-- R24: `in_ready = 1 iff state = IDLE`; not defined at an illegal code (vector Z7). -/
def inReady (s : State) : Option Bool :=
  match phase? s with
  | some .idle   => some true
  | some .conv   => some false
  | some .lead   => some false
  | some .digits => some false
  | some .trail  => some false
  | none         => none

/-- R25: `out_valid = 1 iff state ∈ (LEAD, DIGITS, TRAIL)`; not defined at an illegal code (vector Z7). -/
def outValid (s : State) : Option Bool :=
  match phase? s with
  | some .idle   => some false
  | some .conv   => some false
  | some .lead   => some true
  | some .digits => some true
  | some .trail  => some true
  | none         => none

/-- R26: the byte on offer; absent while `out_valid = 0` (U2), at an illegal code (U1), and in `DIGITS` with a cursor
that addresses no slot (U3). -/
def outData (s : State) : Option Byte :=
  match phase? s with
  | some .idle   => none
  | some .conv   => none
  | some .lead   => some (leadByte s.sign)
  | some .digits => (memRead s.buf s.cursor).map digitByte
  | some .trail  => some spaceByte
  | none         => none

/-- R45: the value taken at this tick: `rst = 0`, `in_valid = 1`, `in_ready = 1`. -/
def inputTransaction (s : State) : Option Word :=
  if (pinsNow s).rst = false ∧ (pinsNow s).inValid = true ∧ inReady s = some true then
    some (pinsNow s).inData
  else none

/-- R46: the byte carried at this tick: `rst = 0`, `out_valid = 1`, `out_ready = 1`. -/
def outputTransaction (s : State) : Option Byte :=
  if (pinsNow s).rst = false ∧ outValid s = some true ∧ (pinsNow s).outReady = true then
    outData s
  else none

end Sys2Proof.Machine
end

