-- ==== Sys2Proof/Machine/Run.lean ====
section
/-! DEFINITION. Runs (43_frame_contract.md section 2): `n` ticks, the operations and selectors they produce
(30_encoding.md R71, R72), and a trace row. -/

namespace Sys2Proof.Machine

/-- `n` ticks from `s`. -/
def run : Nat → State → Host.Outcome State Fault Refusal
  | 0, s => .next s
  | n + 1, s =>
    match step s with
    | .next t    => run n t
    | .fault r   => .fault r
    | .refused r => .refused r

/-- The operations of the next `n` ticks, in order, up to a refusal (R71). -/
def operations : Nat → State → List Instr
  | 0, _ => []
  | n + 1, s =>
    match operation s, step s with
    | .ok i, .next t => i :: operations n t
    | _, _           => []

/-- "The encoding of a program is the column of `sel` values" of its run (R72). -/
def selectors : Nat → State → List Selector
  | 0, _ => []
  | n + 1, s =>
    match step s with
    | .next t    => selector s :: selectors n t
    | .fault _   => []
    | .refused _ => []

/-- One row of a trace (R72). -/
structure TraceRow where
  tick      : Nat
  pins      : Pins
  pre       : Option Phase
  inReady   : Option Bool
  outValid  : Option Bool
  outData   : Option Byte
  sel       : Selector
  operation : Except DecodeError Instr
  post      : State
deriving DecidableEq, Repr

/-- The trace row of the next tick (R72), where the tick has a next state. -/
def traceRow (s : State) : Option TraceRow :=
  match step s with
  | .next t    => some ⟨s.tick, pinsNow s, phase? s, inReady s, outValid s, outData s, selector s, operation s, t⟩
  | .fault _   => none
  | .refused _ => none

end Sys2Proof.Machine
end

