-- ==== Sys2Proof/Machine/Stimulus.lean ====
section
/-! DEFINITION. Stimulus lines and the pseudo-operations (30_encoding.md R70, R73). A `-` in a line's `in_data` column
stands for any word; here that word is an argument. -/

namespace Sys2Proof.Machine

/-- One stimulus line `rst in_valid in_data out_ready` (R70), `in_data` as a signed number. -/
def stimulusLine (rst inValid : Bool) (v : Int) (outReady : Bool) : Pins :=
  ⟨rst, inValid, BitVec.ofInt 32 v, outReady⟩

/-- `PRINT v` (R73): `0 1 v 1`, then `2n + 2` lines `0 0 - 1`. -/
def printScript (v : Int) (other : Word) : List Pins :=
  stimulusLine false true v true :: List.replicate (2 * digitCount v.natAbs + 2) ⟨false, false, other, true⟩

/-- `STALL m` (R73): `m` lines `0 0 - 0`. -/
def stallScript (m : Nat) (other : Word) : List Pins :=
  List.replicate m ⟨false, false, other, false⟩

/-- `IDLE m` (R73): `m` lines `0 0 - r`. -/
def idleScript (m : Nat) (other : Word) (r : Bool) : List Pins :=
  List.replicate m ⟨false, false, other, r⟩

/-- `RST m` (R73): `m` lines `1 x x x`, one for each line given. -/
def rstScript (lines : List Pins) : List Pins :=
  lines.map fun p => ⟨true, p.inValid, p.inData, p.outReady⟩

end Sys2Proof.Machine
end

