-- ==== Sys2Proof/Safety.lean ====
section
/-! DEFINITION. The terms claims use: post-reset states (70_reset_and_hazards.md R163), reset-free runs (43 R134), the
invariants of 10_state.md R31, R32, and what it is for the reference machine to meet the contract (43 R132). -/

namespace Sys2Proof.Machine

/-- R163: "any state with `state = IDLE`; the other registers may hold anything". -/
def PostReset (s : State) : Prop := s.state = Phase.idle.code

/-- `rst = 0` on each of the next `n` ticks (R134 premise (a)). -/
def ResetFree (n : Nat) (s : State) : Prop := ∀ k, k < n → (pinsAt s k).rst = false

/-- In one of the emission states `LEAD`, `DIGITS`, `TRAIL` (R25). -/
def Emitting (s : State) : Prop :=
  s.state = Phase.lead.code ∨ s.state = Phase.digits.code ∨ s.state = Phase.trail.code

/-- R31, the invariant of state `CONV`, part by part. -/
structure ConvInvariant (s : State) : Prop where
  /-- R31 (a) -/
  sign : s.sign = signOf s.val
  /-- R31 (b) -/
  room : s.count.toNat ≤ 9
  /-- R31 (c) -/
  sum : s.mag.toNat * Config.radix ^ s.count.toNat + bufValue s.buf s.count.toNat = magnitude s.val
  /-- R31 (d) -/
  digits : ∀ i, i < s.count.toNat → (Memory.read s.buf i).toNat ≤ 9
  /-- R31 (e) -/
  more : 0 < s.count.toNat → 0 < s.mag.toNat

/-- R32 (a) to (e), the invariant common to `LEAD`, `DIGITS` and `TRAIL`. -/
structure EmitInvariant (s : State) : Prop where
  /-- R32 (a) -/
  sign : s.sign = signOf s.val
  /-- R32 (b) -/
  filled : 1 ≤ s.count.toNat ∧ s.count.toNat ≤ 10
  /-- R32 (c) -/
  sum : s.mag = 0#32 ∧ bufValue s.buf s.count.toNat = magnitude s.val
  /-- R32 (d) -/
  digits : ∀ i, i < s.count.toNat → (Memory.read s.buf i).toNat ≤ 9
  /-- R32 (e): no leading zero, and `count = 1` exactly when `|val| <= 9`. -/
  noLeadingZero : (s.count.toNat = 1 ∨ Memory.read s.buf (s.count.toNat - 1) ≠ 0#4) ∧
    (s.count.toNat = 1 ↔ magnitude s.val ≤ 9)

/-- R31, R32, R34: what holds in each of the five states; codes 5, 6, 7 are excluded (R56). -/
def Invariant (s : State) : Prop :=
  match phase? s with
  | some .idle   => True
  | some .conv   => ConvInvariant s
  | some .lead   => EmitInvariant s ∧ s.cursor.toNat = s.count.toNat - 1
  | some .digits => EmitInvariant s ∧ s.cursor.toNat ≤ s.count.toNat - 1
  | some .trail  => EmitInvariant s ∧ s.cursor.toNat = 0
  | none         => False

/-- How many of the ticks `a`, `a + 1`, ..., `m - 1` from now have `out_ready = 1` (R130). -/
def readyTicks (a m : Nat) (s : State) : Nat :=
  ((List.range m).filter fun k => decide (a ≤ k) && (pinsAt s k).outReady).length

/-! ### The contract (43_frame_contract.md R124 to R130, as R132 asks it of the reference machine) -/

/-- R134: `t` stands `n` ticks after the post-reset state `s`, with `rst = 0` on each of them. Nothing is asked of the
producer or of the consumer. -/
def ContractRun (n : Nat) (s t : State) : Prop := PostReset s ∧ ResetFree n s ∧ run n s = .next t

/-- The values taken from `s` to `t`, in order: `v_1, v_2, ...` of 43_frame_contract.md section 2. -/
def requests (s t : State) : List Int := takenValues (t.taken.drop s.taken.length)

/-- The bytes sent from `s` to `t`, in order: `B` of 43_frame_contract.md section 2. -/
def bytesSent (s t : State) : List Byte := sentBytes (t.sent.drop s.sent.length)

/-- R132: rules R124 to R130 hold of the reference machine, one field for each. -/
structure MeetsContract : Prop where
  /-- R124: the bytes are a prefix of the frames of the requests, and the whole of them whenever `in_ready = 1`. -/
  functional : ∀ (n : Nat) (s t : State), ContractRun n s t →
    s.taken <+: t.taken ∧ s.sent <+: t.sent ∧ bytesSent s t <+: frames (requests s t) ∧
    (inReady t = some true → bytesSent s t = frames (requests s t))
  /-- R125: the same value twice gives two identical frames; and what is sent is a function of the values only, whatever
  the start state, the `out_ready` pattern and the time spent idle. -/
  idempotent : (∀ (n : Nat) (s t : State) (v : Int), ContractRun n s t → inReady t = some true →
      requests s t = [v, v] → bytesSent s t = frame v ++ frame v) ∧
    (∀ (n n' : Nat) (s s' t t' : State), ContractRun n s t → ContractRun n' s' t' → inReady t = some true →
      inReady t' = some true → requests s t = requests s' t' → bytesSent s t = bytesSent s' t')
  /-- R126: with the same values one output sequence is a prefix of the other; a byte not taken stays on offer. -/
  backpressure : (∀ (n n' : Nat) (s s' t t' : State), ContractRun n s t → ContractRun n' s' t' →
      requests s t = requests s' t' → bytesSent s t <+: bytesSent s' t' ∨ bytesSent s' t' <+: bytesSent s t) ∧
    (∀ (n : Nat) (s t u : State), ContractRun n s t → (pinsNow t).rst = false → outValid t = some true →
      (pinsNow t).outReady = false → step t = .next u → outValid u = some true ∧ outData u = outData t)
  /-- R127: while a frame is not wholly sent the block is not ready and takes nothing; all requests but the last are
  wholly sent. -/
  busy : ∀ (n : Nat) (s t : State), ContractRun n s t →
    (bytesSent s t ≠ frames (requests s t) → inReady t = some false ∧ inputTransaction t = none) ∧
    frames (requests s t).dropLast <+: bytesSent s t
  /-- R128: with nothing in flight the block is ready and offers nothing; a byte on offer is the next one of a frame. -/
  idleBehaviour : ∀ (n : Nat) (s t : State), ContractRun n s t →
    (bytesSent s t = frames (requests s t) → inReady t = some true ∧ outValid t = some false) ∧
    (outValid t = some true → ∃ b : Byte, outData t = some b ∧ bytesSent s t ++ [b] <+: frames (requests s t))
  /-- R129: the machine never stops, and every word offered while it is ready is taken, at that tick, as its value. -/
  total : (∀ (n : Nat) (s : State), PostReset s → ResetFree n s → ∃ t : State, run n s = .next t) ∧
    (∀ (n : Nat) (s t : State), ContractRun n s t → inReady t = some true → (pinsNow t).rst = false →
      (pinsNow t).inValid = true → inputTransaction t = some (pinsNow t).inData ∧
      ∃ u : State, step t = .next u ∧ requests s u = requests s t ++ [s32 (pinsNow t).inData])
  /-- R130: `out_valid` is 1 within eleven ticks, the one of the input transaction included; an offered byte is taken when
  `out_ready = 1`; twelve ready ticks after the first ten bring `in_ready` back, wherever they lie (a consumer that is
  ready infinitely often supplies them); and a consumer that stops stops the block, for any number of ticks. -/
  progress : (∀ (n : Nat) (s t : State) (w : Word), ContractRun n s t → inputTransaction t = some w → ResetFree 11 t →
      ∃ (k : Nat) (u : State), k ≤ 11 ∧ run k t = .next u ∧ outValid u = some true) ∧
    (∀ (n : Nat) (s t : State), ContractRun n s t → (pinsNow t).rst = false → outValid t = some true →
      (pinsNow t).outReady = true → ∃ b : Byte, outputTransaction t = some b ∧ outData t = some b) ∧
    (∀ (n m : Nat) (s t : State), ContractRun n s t → ResetFree m t → 12 ≤ readyTicks 10 m t →
      ∃ (k : Nat) (u : State), k ≤ m ∧ run k t = .next u ∧ inReady u = some true) ∧
    (∀ (n m : Nat) (s t : State), ContractRun n s t → outValid t = some true → ResetFree m t →
      (∀ k, k < m → (pinsAt t k).outReady = false) →
      ∃ u : State, run m t = .next u ∧ outValid u = some true ∧ outData u = outData t ∧ u.sent = t.sent)

end Sys2Proof.Machine
end

