-- ==== Sys2Proof/Certificates/Slice0/Obligations.lean ====
section
/-! DEFINITION. The statements for the provers, from the numbered rules of spec/. `nextTick` ends a tick (log 4, log 5):
it takes the script's line away and adds one to `tick`. `taken` and `sent` are the model's record of R47's observation
(log 6). An absent output is one the spec leaves unspecified (R26, U1, U2; log 9). Byte values (0x20, 0x2D, 0x30 + d)
and the two's complement formulas are the rules' own, which the spec marks as general knowledge (G1, G3). -/

open Sys2Proof Sys2Proof.Machine

/-! ### The selector -/

/-- Words of R62's `encoding` column written out bit by bit, ignored bits at various values. -/
def Obligations.SpotSelectorsDecode : Prop :=
  decode 0b10000000#8 = .ok .reset ∧ decode 0b10111110#8 = .ok .reset ∧ decode 0b11111111#8 = .ok .reset ∧
  decode 0b00000111#8 = .ok .idleWait ∧ decode 0b00001000#8 = .ok .accept ∧ decode 0b00011101#8 = .ok .convStep ∧
  decode 0b00010010#8 = .ok .convLast ∧ decode 0b00100011#8 = .ok .leadHold ∧ decode 0b00101110#8 = .ok .leadSend ∧
  decode 0b00110011#8 = .ok .digitHold ∧ decode 0b00110110#8 = .ok .digitSend ∧
  decode 0b00110111#8 = .ok .digitLast ∧ decode 0b01000011#8 = .ok .trailHold ∧ decode 0b01001111#8 = .ok .trailSend ∧
  decode 0b01010000#8 = .error (.illegalStateCode 5#3) ∧ decode 0b01111111#8 = .error (.illegalStateCode 7#3)

/-- R62: encoding an operation with any values of its ignored bits and decoding gives both back, and every selector that
decodes is such an encoding: no bit of a selector is dropped. -/
def Obligations.DecodeInvertsEncode : Prop :=
  (∀ (i : Instr) (rest : Selector), wellFormed i rest = true → decodeFull (encode i rest) = .ok (i, rest)) ∧
  (∀ (w : Selector) (i : Instr) (rest : Selector), decodeFull w = .ok (i, rest) →
    wellFormed i rest = true ∧ encode i rest = w)

/-- R58, R20: where each field of `sel` comes from. -/
def Obligations.SelectorFields : Prop :=
  ∀ s : State,
    selRst (selector s) = (pinsNow s).rst ∧ selSt (selector s) = s.state ∧
    selIv (selector s) = (pinsNow s).inValid ∧ selOr (selector s) = (pinsNow s).outReady ∧
    (selQz (selector s) = true ↔ s.mag.toNat / 10 = 0) ∧ (selCz (selector s) = true ↔ s.cursor.toNat = 0)

/-- R60: the selector's definition, and that its decoding is the one row that matches. -/
def Obligations.SelectorRowsDisjointAndCover : Prop :=
  (∀ s : State, selector s = BitVec.ofBool (pinsNow s).rst ++ s.state ++ BitVec.ofBool (pinsNow s).inValid ++
    BitVec.ofBool (pinsNow s).outReady ++ BitVec.ofBool (qZero s.mag) ++ BitVec.ofBool (curZero s.cursor)) ∧
  (∀ w : Selector, (operationMap.filter fun r => r.selects w).length = if legalSelector w then 1 else 0) ∧
  (∀ (w : Selector) (i : Instr), decode w = .ok i ↔ ∃ r ∈ operationMap, w &&& r.mask = r.pattern ∧ r.instr = i)

/-- R66: the selectors that select nothing are 0x50 to 0x7F, rejected by the state code they hold; and how many
selectors each operation has. -/
def Obligations.IllegalSelectorsRejected : Prop :=
  (∀ w : Selector, (∃ e, decode w = .error e) ↔ 0x50 ≤ w.toNat ∧ w.toNat ≤ 0x7F) ∧
  (∀ (w : Selector) (e : DecodeError), decode w = .error e →
    e = .illegalStateCode (selSt w) ∧ 5 ≤ (selSt w).toNat ∧ selRst w = false) ∧
  (∀ i : Instr, ((List.range 256).filter fun n => decide (decode (BitVec.ofNat 8 n) = .ok i)).length =
    match i with
    | .reset => 128
    | .digitSend => 4
    | .digitLast => 4
    | .idleWait => 8 | .accept => 8 | .convStep => 8 | .convLast => 8 | .leadHold => 8 | .leadSend => 8
    | .digitHold => 8 | .trailHold => 8 | .trailSend => 8)

/-- R61: the operation of a tick, by state and inputs. -/
def Obligations.OperationByStateAndInputs : Prop :=
  ∀ s : State,
    ((pinsNow s).rst = true → operation s = .ok .reset) ∧
    ((pinsNow s).rst = false →
      (s.state = Phase.idle.code → operation s = .ok (if (pinsNow s).inValid then .accept else .idleWait)) ∧
      (s.state = Phase.conv.code → operation s = .ok (if s.mag.toNat / 10 = 0 then .convLast else .convStep)) ∧
      (s.state = Phase.lead.code → operation s = .ok (if (pinsNow s).outReady then .leadSend else .leadHold)) ∧
      (s.state = Phase.digits.code → operation s =
        .ok (if (pinsNow s).outReady then (if s.cursor.toNat = 0 then .digitLast else .digitSend) else .digitHold)) ∧
      (s.state = Phase.trail.code → operation s = .ok (if (pinsNow s).outReady then .trailSend else .trailHold)))

/-- R63: two stimulus lines that agree where the state looks (on `rst`; in `IDLE` on `in_valid` and, when it is 1, on
`in_data`; in an emission state on `out_ready`) give the same tick; and the decoder does not look at `qz` outside
`CONV`, at `cz` outside `DIGITS`, at `iv` outside `IDLE`, at `or` in `IDLE` and `CONV`, at anything when `rst = 1`. -/
def Obligations.IgnoredInputsHaveNoEffect : Prop :=
  (∀ (s : State) (p q : Pins) (l : List Pins),
    p.rst = q.rst →
    (p.rst = false → s.state = Phase.idle.code → p.inValid = q.inValid ∧ (p.inValid = true → p.inData = q.inData)) →
    (p.rst = false → Emitting s → p.outReady = q.outReady) →
    step { s with script := p :: l } = step { s with script := q :: l }) ∧
  (∀ (st st' : StateCode) (iv iv' ready ready' qz qz' cz cz' : Bool),
    decode (selectorWord true st iv ready qz cz) = decode (selectorWord true st' iv' ready' qz' cz') ∧
    (st ≠ Phase.conv.code →
      decode (selectorWord false st iv ready qz cz) = decode (selectorWord false st iv ready qz' cz)) ∧
    (st ≠ Phase.digits.code →
      decode (selectorWord false st iv ready qz cz) = decode (selectorWord false st iv ready qz cz')) ∧
    (st ≠ Phase.idle.code →
      decode (selectorWord false st iv ready qz cz) = decode (selectorWord false st iv' ready qz cz)) ∧
    (st = Phase.idle.code ∨ st = Phase.conv.code →
      decode (selectorWord false st iv ready qz cz) = decode (selectorWord false st iv ready' qz cz)))

/-! ### The tick -/

/-- R57, R60: a tick performs the operation its selector decodes to; around it the step only ends the tick (log 4,
log 5), and a refusal is passed on. -/
def Obligations.StepRunsDecodedOperation : Prop :=
  ∀ (s : State) (i : Instr), decode (selector s) = .ok i →
    step s = match exec i s with
      | .next u    => .next { u with tick := u.tick + 1, script := u.script.tail }
      | .fault f   => .fault f
      | .refused r => .refused r

/-- What the spec says to refuse is refused by name. U1, R66: an illegal state code with `rst = 0` (log 7, the model's
reading of `refuse`). U3, R40: a buffer access at index 10 to 15, in each of the three operations that can make one; that
the whole operation is refused is the model's reading (log 8). -/
def Obligations.UnspecifiedCasesRefusedByName : Prop :=
  (∀ s : State, (pinsNow s).rst = false → 5 ≤ s.state.toNat → step s = .refused (.illegalStateCode s.state)) ∧
  (∀ s : State,
    (10 ≤ s.count.toNat → exec .convStep s = .refused (.bufferIndex s.count) ∧
      exec .convLast s = .refused (.bufferIndex s.count)) ∧
    (10 ≤ s.cursor.toNat → exec .digitSend s = .refused (.bufferIndex s.cursor)))

/-- Log 10 (the model's own): a state set up with a selector word forms that selector, whatever the state was. -/
def Obligations.WithFetchWordFormsSelector : Prop :=
  ∀ (s : State) (w : Selector), selector (s.withFetchWord 8 w.toNat) = w

/-! ### The twelve operations, rule by rule -/

/-- R160, R161: RESET, in every state, legal or not. -/
def Obligations.ResetOperation : Prop :=
  (∀ s : State, exec .reset s = .next { s with state := Phase.idle.code }) ∧
  (∀ s : State, (pinsNow s).rst = true →
    operation s = .ok .reset ∧ inputTransaction s = none ∧ outputTransaction s = none ∧
    step s = .next (nextTick { s with state := Phase.idle.code }))

/-- R76: IDLE_WAIT. -/
def Obligations.IdleWaitOperation : Prop :=
  ∀ s : State, s.state = Phase.idle.code → (pinsNow s).rst = false → (pinsNow s).inValid = false →
    operation s = .ok .idleWait ∧ inReady s = some true ∧ outValid s = some false ∧ outData s = none ∧
    inputTransaction s = none ∧ outputTransaction s = none ∧
    exec .idleWait s = .next s ∧ step s = .next (nextTick s)

/-- R77: ACCEPT, for every word on `in_data`. -/
def Obligations.AcceptOperation : Prop :=
  ∀ s : State, s.state = Phase.idle.code → (pinsNow s).rst = false → (pinsNow s).inValid = true →
    operation s = .ok .accept ∧ inReady s = some true ∧ outValid s = some false ∧
    inputTransaction s = some (pinsNow s).inData ∧ outputTransaction s = none ∧
    ∃ t : State, exec .accept s = .next t ∧ step s = .next (nextTick t) ∧
      t.val = (pinsNow s).inData ∧ t.sign = (pinsNow s).inData.getLsbD 31 ∧
      (t.sign = true ↔ s32 (pinsNow s).inData < 0) ∧
      t.mag = abs32 (pinsNow s).inData ∧ t.mag.toNat = (s32 (pinsNow s).inData).natAbs ∧
      t.count = 0#4 ∧ t.state = Phase.conv.code ∧
      t.taken = s.taken ++ [⟨s.tick, (pinsNow s).inData⟩] ∧
      t = { s with val := t.val, sign := t.sign, mag := t.mag, count := t.count, state := t.state, taken := t.taken }

/-- R88: CONV_STEP; with `count` at 10 to 15, where no slot is, see `BufferIndexOutOfRangeRefused`. -/
def Obligations.ConvStepOperation : Prop :=
  ∀ s : State, s.state = Phase.conv.code → (pinsNow s).rst = false → 10 ≤ s.mag.toNat → s.count.toNat ≤ 9 →
    operation s = .ok .convStep ∧ inReady s = some false ∧ outValid s = some false ∧ outData s = none ∧
    inputTransaction s = none ∧ outputTransaction s = none ∧
    ∃ t : State, exec .convStep s = .next t ∧ step s = .next (nextTick t) ∧
      (Memory.read t.buf s.count.toNat).toNat = s.mag.toNat % 10 ∧
      (∀ j, j ≠ s.count.toNat → Memory.read t.buf j = Memory.read s.buf j) ∧
      t.mag.toNat = s.mag.toNat / 10 ∧ 1 ≤ t.mag.toNat ∧ t.count.toNat = s.count.toNat + 1 ∧
      t.state = Phase.conv.code ∧ t = { s with buf := t.buf, mag := t.mag, count := t.count }

/-- R89: CONV_LAST; with `count` at 10 to 15, where no slot is, see `BufferIndexOutOfRangeRefused`. -/
def Obligations.ConvLastOperation : Prop :=
  ∀ s : State, s.state = Phase.conv.code → (pinsNow s).rst = false → s.mag.toNat ≤ 9 → s.count.toNat ≤ 9 →
    operation s = .ok .convLast ∧ inReady s = some false ∧ outValid s = some false ∧ outData s = none ∧
    inputTransaction s = none ∧ outputTransaction s = none ∧
    ∃ t : State, exec .convLast s = .next t ∧ step s = .next (nextTick t) ∧
      (Memory.read t.buf s.count.toNat).toNat = s.mag.toNat % 10 ∧
      (Memory.read t.buf s.count.toNat).toNat = s.mag.toNat ∧
      (∀ j, j ≠ s.count.toNat → Memory.read t.buf j = Memory.read s.buf j) ∧
      t.mag = 0#32 ∧ t.mag.toNat = s.mag.toNat / 10 ∧ t.cursor = s.count ∧ t.count.toNat = s.count.toNat + 1 ∧
      t.state = Phase.lead.code ∧
      t = { s with buf := t.buf, mag := t.mag, cursor := t.cursor, count := t.count, state := t.state }

/-- R101: LEAD_HOLD. -/
def Obligations.LeadHoldOperation : Prop :=
  ∀ s : State, s.state = Phase.lead.code → (pinsNow s).rst = false → (pinsNow s).outReady = false →
    operation s = .ok .leadHold ∧ inReady s = some false ∧ outValid s = some true ∧
    outData s = some (if s.sign then 0x2D#8 else 0x20#8) ∧
    inputTransaction s = none ∧ outputTransaction s = none ∧
    exec .leadHold s = .next s ∧ step s = .next (nextTick s)

/-- R102: LEAD_SEND. -/
def Obligations.LeadSendOperation : Prop :=
  ∀ s : State, s.state = Phase.lead.code → (pinsNow s).rst = false → (pinsNow s).outReady = true →
    operation s = .ok .leadSend ∧ inReady s = some false ∧ outValid s = some true ∧
    outData s = some (if s.sign then 0x2D#8 else 0x20#8) ∧
    inputTransaction s = none ∧ outputTransaction s = some (if s.sign then 0x2D#8 else 0x20#8) ∧
    ∃ t : State, exec .leadSend s = .next t ∧ step s = .next (nextTick t) ∧
      t.sent = s.sent ++ [⟨s.tick, if s.sign then 0x2D#8 else 0x20#8⟩] ∧ t.state = Phase.digits.code ∧
      t = { s with state := t.state, sent := t.sent }

/-- R103: DIGIT_HOLD; it completes for every `cursor`, and the byte is stated where `cursor` addresses a slot. -/
def Obligations.DigitHoldOperation : Prop :=
  ∀ s : State, s.state = Phase.digits.code → (pinsNow s).rst = false → (pinsNow s).outReady = false →
    operation s = .ok .digitHold ∧ inReady s = some false ∧ outValid s = some true ∧
    (s.cursor.toNat ≤ 9 → outData s = some (0x30#8 + (Memory.read s.buf s.cursor.toNat).zeroExtend 8)) ∧
    inputTransaction s = none ∧ outputTransaction s = none ∧
    exec .digitHold s = .next s ∧ step s = .next (nextTick s)

/-- R104: DIGIT_SEND; with `cursor` at 10 to 15, where no slot is, see `BufferIndexOutOfRangeRefused`. -/
def Obligations.DigitSendOperation : Prop :=
  ∀ s : State, s.state = Phase.digits.code → (pinsNow s).rst = false → (pinsNow s).outReady = true →
    1 ≤ s.cursor.toNat → s.cursor.toNat ≤ 9 →
    operation s = .ok .digitSend ∧ inReady s = some false ∧ outValid s = some true ∧
    outData s = some (0x30#8 + (Memory.read s.buf s.cursor.toNat).zeroExtend 8) ∧
    inputTransaction s = none ∧
    outputTransaction s = some (0x30#8 + (Memory.read s.buf s.cursor.toNat).zeroExtend 8) ∧
    ∃ t : State, exec .digitSend s = .next t ∧ step s = .next (nextTick t) ∧
      t.sent = s.sent ++ [⟨s.tick, 0x30#8 + (Memory.read s.buf s.cursor.toNat).zeroExtend 8⟩] ∧
      t.cursor.toNat = s.cursor.toNat - 1 ∧ t.state = Phase.digits.code ∧
      t = { s with cursor := t.cursor, sent := t.sent }

/-- R105: DIGIT_LAST. -/
def Obligations.DigitLastOperation : Prop :=
  ∀ s : State, s.state = Phase.digits.code → (pinsNow s).rst = false → (pinsNow s).outReady = true →
    s.cursor.toNat = 0 →
    operation s = .ok .digitLast ∧ inReady s = some false ∧ outValid s = some true ∧
    outData s = some (0x30#8 + (Memory.read s.buf 0).zeroExtend 8) ∧
    inputTransaction s = none ∧ outputTransaction s = some (0x30#8 + (Memory.read s.buf 0).zeroExtend 8) ∧
    ∃ t : State, exec .digitLast s = .next t ∧ step s = .next (nextTick t) ∧
      t.sent = s.sent ++ [⟨s.tick, 0x30#8 + (Memory.read s.buf 0).zeroExtend 8⟩] ∧
      t.cursor.toNat = 0 ∧ t.state = Phase.trail.code ∧ t = { s with state := t.state, sent := t.sent }

/-- R106: TRAIL_HOLD. -/
def Obligations.TrailHoldOperation : Prop :=
  ∀ s : State, s.state = Phase.trail.code → (pinsNow s).rst = false → (pinsNow s).outReady = false →
    operation s = .ok .trailHold ∧ inReady s = some false ∧ outValid s = some true ∧ outData s = some 0x20#8 ∧
    inputTransaction s = none ∧ outputTransaction s = none ∧
    exec .trailHold s = .next s ∧ step s = .next (nextTick s)

/-- R107: TRAIL_SEND; `in_ready` is 0 during the tick and 1 in the next period. -/
def Obligations.TrailSendOperation : Prop :=
  ∀ s : State, s.state = Phase.trail.code → (pinsNow s).rst = false → (pinsNow s).outReady = true →
    operation s = .ok .trailSend ∧ inReady s = some false ∧ outValid s = some true ∧ outData s = some 0x20#8 ∧
    inputTransaction s = none ∧ outputTransaction s = some 0x20#8 ∧
    ∃ t : State, exec .trailSend s = .next t ∧ step s = .next (nextTick t) ∧
      t.sent = s.sent ++ [⟨s.tick, 0x20#8⟩] ∧ t.state = Phase.idle.code ∧ inReady (nextTick t) = some true ∧
      t = { s with state := t.state, sent := t.sent }

/-! ### What every operation leaves alone, the next-state table, the outputs -/

/-- R37, R38, R40, R42: the digit buffer. A write to one of the ten slots is read back there and leaves every other
slot alone; the other indexes address nothing (log 8). -/
def Obligations.BufferReadAfterWrite : Prop :=
  ∀ (m : Memory) (i : Index) (d : Slot),
    (i.toNat ≤ 9 → ∃ m' : Memory, memWrite m i d = some m' ∧ memRead m' i = some d ∧
      (∀ j : Index, j ≠ i → memRead m' j = memRead m j) ∧ memRead m i = some (Memory.read m i.toNat)) ∧
    (10 ≤ i.toNat → memRead m i = none ∧ memWrite m i d = none)

/-- R23 with the table of R18: an operation changes only the registers its rule names, and of the buffer only slot
`count`; the transactions so far are kept, and only ACCEPT and the four sends add to them. -/
def Obligations.OperationsChangeOnlyNamedRegisters : Prop :=
  ∀ (i : Instr) (s t : State), exec i s = .next t →
    (i ∉ [Instr.reset, .accept, .convLast, .leadSend, .digitLast, .trailSend] → t.state = s.state) ∧
    (i ≠ .accept → t.val = s.val ∧ t.sign = s.sign ∧ t.taken = s.taken) ∧
    (i ∉ [Instr.accept, .convStep, .convLast] → t.mag = s.mag ∧ t.count = s.count) ∧
    (i ∉ [Instr.convLast, .digitSend] → t.cursor = s.cursor) ∧
    (i ∉ [Instr.convStep, .convLast] → ∀ j, Memory.read t.buf j = Memory.read s.buf j) ∧
    (∀ j, j ≠ s.count.toNat → Memory.read t.buf j = Memory.read s.buf j) ∧
    (i ∉ [Instr.leadSend, .digitSend, .digitLast, .trailSend] → t.sent = s.sent) ∧
    s.taken <+: t.taken ∧ s.sent <+: t.sent ∧ t.script = s.script ∧ t.tick = s.tick

/-- R100: the complete next-state function, row by row: condition, operation, post-state. -/
def Obligations.NextStateTable : Prop :=
  ∀ s t : State, step s = .next t →
    ((pinsNow s).rst = true → operation s = .ok .reset ∧ t.state = Phase.idle.code) ∧
    ((pinsNow s).rst = false →
      (s.state = Phase.idle.code → (pinsNow s).inValid = false →
        operation s = .ok .idleWait ∧ t.state = Phase.idle.code) ∧
      (s.state = Phase.idle.code → (pinsNow s).inValid = true →
        operation s = .ok .accept ∧ t.state = Phase.conv.code) ∧
      (s.state = Phase.conv.code → 10 ≤ s.mag.toNat → operation s = .ok .convStep ∧ t.state = Phase.conv.code) ∧
      (s.state = Phase.conv.code → s.mag.toNat ≤ 9 → operation s = .ok .convLast ∧ t.state = Phase.lead.code) ∧
      (s.state = Phase.lead.code → (pinsNow s).outReady = false →
        operation s = .ok .leadHold ∧ t.state = Phase.lead.code) ∧
      (s.state = Phase.lead.code → (pinsNow s).outReady = true →
        operation s = .ok .leadSend ∧ t.state = Phase.digits.code) ∧
      (s.state = Phase.digits.code → (pinsNow s).outReady = false →
        operation s = .ok .digitHold ∧ t.state = Phase.digits.code) ∧
      (s.state = Phase.digits.code → (pinsNow s).outReady = true → s.cursor ≠ 0#4 →
        operation s = .ok .digitSend ∧ t.state = Phase.digits.code) ∧
      (s.state = Phase.digits.code → (pinsNow s).outReady = true → s.cursor = 0#4 →
        operation s = .ok .digitLast ∧ t.state = Phase.trail.code) ∧
      (s.state = Phase.trail.code → (pinsNow s).outReady = false →
        operation s = .ok .trailHold ∧ t.state = Phase.trail.code) ∧
      (s.state = Phase.trail.code → (pinsNow s).outReady = true →
        operation s = .ok .trailSend ∧ t.state = Phase.idle.code))

/-- R24, R25, R26: the outputs of each of the five states, (R172) that they do not depend on the inputs, that the block
is ready after TRAIL_SEND, and that the byte on offer is stable across a hold. -/
def Obligations.OutputsByState : Prop :=
  ∀ s : State,
    (s.state = Phase.idle.code → inReady s = some true ∧ outValid s = some false ∧ outData s = none) ∧
    (s.state = Phase.conv.code → inReady s = some false ∧ outValid s = some false ∧ outData s = none) ∧
    (s.state = Phase.lead.code → inReady s = some false ∧ outValid s = some true ∧
      outData s = some (if s.sign then 0x2D#8 else 0x20#8)) ∧
    (s.state = Phase.digits.code → inReady s = some false ∧ outValid s = some true ∧
      (s.cursor.toNat ≤ 9 → outData s = some (0x30#8 + (Memory.read s.buf s.cursor.toNat).zeroExtend 8))) ∧
    (s.state = Phase.trail.code → inReady s = some false ∧ outValid s = some true ∧ outData s = some 0x20#8) ∧
    (∀ (l : List Pins) (k : Nat), inReady { s with script := l, tick := k } = inReady s ∧
      outValid { s with script := l, tick := k } = outValid s ∧ outData { s with script := l, tick := k } = outData s) ∧
    (∀ t : State, step s = .next t →
      (operation s = .ok .trailSend → inReady t = some true) ∧
      (Emitting s → (pinsNow s).rst = false → (pinsNow s).outReady = false → outData t = outData s))

/-! ### Transactions -/

/-- R45: input transactions and ACCEPT operations are in one-to-one correspondence. -/
def Obligations.InputTransactionIffAccept : Prop :=
  ∀ (s : State) (w : Word),
    (inputTransaction s = some w ↔
      (pinsNow s).rst = false ∧ (pinsNow s).inValid = true ∧ inReady s = some true ∧ w = (pinsNow s).inData) ∧
    (inputTransaction s = some w ↔ operation s = .ok .accept ∧ w = (pinsNow s).inData)

/-- R46: output transactions and send operations are in one-to-one correspondence (with a cursor at 10 to 15 there is no
byte, so `cursor <= 9` in `DIGITS` is asked), and the byte carried is `out_data`. -/
def Obligations.OutputTransactionIffSend : Prop :=
  ∀ s : State, (s.state = Phase.digits.code → s.cursor.toNat ≤ 9) →
    ((outputTransaction s).isSome = true ↔
      (pinsNow s).rst = false ∧ outValid s = some true ∧ (pinsNow s).outReady = true) ∧
    ((outputTransaction s).isSome = true ↔
      ∃ i ∈ [Instr.leadSend, .digitSend, .digitLast, .trailSend], operation s = .ok i) ∧
    (∀ b, outputTransaction s = some b → outData s = some b)

/-- R45, R46, R47: a tick records exactly the transactions it carries; the record is the model's own (log 6). -/
def Obligations.TickRecordsItsTransactions : Prop :=
  ∀ s t : State, step s = .next t →
    t.taken = s.taken ++ (inputTransaction s).toList.map (fun w => ⟨s.tick, w⟩) ∧
    t.sent = s.sent ++ (outputTransaction s).toList.map (fun b => ⟨s.tick, b⟩)

/-- R144: `rst` wins over everything; a TRAIL_SEND tick takes no offered value; no tick carries both an input and an
output transaction. -/
def Obligations.SimultaneousEvents : Prop :=
  ∀ s : State,
    ((pinsNow s).rst = true → operation s = .ok .reset ∧ inputTransaction s = none ∧ outputTransaction s = none) ∧
    (s.state = Phase.trail.code → (pinsNow s).rst = false → (pinsNow s).outReady = true →
      (pinsNow s).inValid = true → operation s = .ok .trailSend ∧ inputTransaction s = none) ∧
    (inputTransaction s = none ∨ outputTransaction s = none)

/-- R161, R162: a reset tick carries no transaction whatever the pins show; the byte on offer is withdrawn and the block
is ready in the next period. -/
def Obligations.ResetAbandonsTheFrame : Prop :=
  ∀ s : State, (pinsNow s).rst = true →
    inputTransaction s = none ∧ outputTransaction s = none ∧
    ∃ t : State, step s = .next t ∧ t.taken = s.taken ∧ t.sent = s.sent ∧
      outValid t = some false ∧ outData t = none ∧ inReady t = some true

/-! ### Invariants -/

/-- R30: the outputs right after reset, and the invariant there; the other registers' values are the model's choice
(logs 2, 3), of which nothing is said. -/
def Obligations.ResetStateIsIdle : Prop :=
  State.reset.state = Phase.idle.code ∧ inReady State.reset = some true ∧ outValid State.reset = some false ∧
  outData State.reset = none ∧ Invariant State.reset ∧ Memory.wf State.reset.buf = true

/-- R163, R34: every post-reset state, whatever its other registers hold, satisfies the invariant and offers the first
operations R163 lists. -/
def Obligations.PostResetStates : Prop :=
  ∀ s : State, PostReset s → Invariant s ∧ inReady s = some true ∧ outValid s = some false ∧
    (operation s = .ok .idleWait ∨ operation s = .ok .accept ∨ operation s = .ok .reset)

/-- R31, R32: every tick keeps the invariant. -/
def Obligations.StepKeepsInvariant : Prop :=
  ∀ s t : State, Invariant s → step s = .next t → Invariant t

/-- R140, R31, R32: under the invariant no tick is refused. -/
def Obligations.InvariantStepNeverStops : Prop :=
  ∀ s : State, Invariant s → ∃ t : State, step s = .next t

/-- Every tick keeps the buffer's canonical form (log 1). -/
def Obligations.StepKeepsBufferCanonical : Prop :=
  ∀ s t : State, Memory.wf s.buf = true → step s = .next t → Memory.wf t.buf = true

/-- R140, R163: from a post-reset state the machine runs for any number of ticks, whatever the environment does. -/
def Obligations.RunFromPostResetNeverStops : Prop :=
  ∀ (s : State) (n : Nat), PostReset s → ∃ t : State, run n s = .next t ∧ Invariant t

/-- R35, R92: under the invariant no addition or subtraction wraps and no access misses the buffer. -/
def Obligations.WidthsSuffice : Prop :=
  ∀ s : State, Invariant s →
    (s.state = Phase.conv.code → (s.count + 1#4).toNat = s.count.toNat + 1 ∧ s.count.toNat < 10 ∧
      (10 ≤ s.mag.toNat → s.count.toNat ≤ 8)) ∧
    (s.state = Phase.digits.code → s.cursor.toNat < s.count.toNat ∧ s.count.toNat ≤ 10 ∧
      (0 < s.cursor.toNat → (s.cursor - 1#4).toNat = s.cursor.toNat - 1) ∧
      (digitByte (Memory.read s.buf s.cursor.toNat)).toNat = 0x30 + (Memory.read s.buf s.cursor.toNat).toNat) ∧
    (quotient s.mag).toNat ≤ s.mag.toNat

/-- R86, R94: in an emission state the buffer holds the digits of the request's magnitude, least significant first. -/
def Obligations.EngineDeliversDigits : Prop :=
  ∀ s : State, Invariant s → Emitting s →
    s.sign = decide (s32 s.val < 0) ∧ s.count.toNat = digitCount (magnitude s.val) ∧
    bufDigits s.buf s.count.toNat = digitsLsf (magnitude s.val)

/-- R65: only a space, a hyphen-minus or a digit is ever on offer, and in an emission state a byte is. -/
def Obligations.OfferedBytesAreFrameBytes : Prop :=
  ∀ s : State, Invariant s →
    (Emitting s → (outData s).isSome = true) ∧
    (∀ b, outData s = some b → b = 0x20#8 ∨ b = 0x2D#8 ∨ (0x30 ≤ b.toNat ∧ b.toNat ≤ 0x39))

/-! ### Readiness, backpressure, stalling -/

/-- R127, R128, R111: without reset, `in_ready` is 1 after a tick exactly when that tick was IDLE_WAIT or TRAIL_SEND;
then `out_valid` is 0 and nothing is on offer. -/
def Obligations.ReadyOnlyWhenDrained : Prop :=
  ∀ s t : State, (pinsNow s).rst = false → step s = .next t →
    (inReady t = some true ↔ operation s = .ok .idleWait ∨ operation s = .ok .trailSend) ∧
    (inReady t = some true → outValid t = some false ∧ outData t = none) ∧
    (inReady t ≠ some true → inReady t = some false)

/-- R110: from the lead byte to the trail space `out_valid` stays 1 from tick to tick, without reset. -/
def Obligations.NoGapsInAFrame : Prop :=
  ∀ s t : State, (pinsNow s).rst = false → step s = .next t →
    (Emitting s → operation s ≠ .ok .trailSend → outValid t = some true) ∧
    (operation s = .ok .convLast → outValid t = some true)

/-- R108, R126: while the consumer withholds `out_ready`, every register, `out_valid` and `out_data` stay. -/
def Obligations.HoldKeepsTheOffer : Prop :=
  ∀ s : State, Emitting s → (pinsNow s).rst = false → (pinsNow s).outReady = false →
    step s = .next (nextTick s) ∧ outValid (nextTick s) = some true ∧ outData (nextTick s) = outData s

/-- R175, U12: a stalled consumer stalls the block, and a silent producer leaves it idle, for any number of ticks; only
the tick number and the script move on. -/
def Obligations.StallsIndefinitely : Prop :=
  (∀ (n : Nat) (s : State), Emitting s → ResetFree n s → (∀ k, k < n → (pinsAt s k).outReady = false) →
    run n s = .next { s with tick := s.tick + n, script := s.script.drop n }) ∧
  (∀ (n : Nat) (s : State), PostReset s → ResetFree n s → (∀ k, k < n → (pinsAt s k).inValid = false) →
    run n s = .next { s with tick := s.tick + n, script := s.script.drop n })

/-! ### The contract -/

/-- R124, R127: in a reset-free run from any post-reset state the bytes sent are a prefix of the frames of the values
taken, in order; at a tick with `in_ready = 1` they are all of them; every request but the last is wholly sent. -/
def Obligations.OutputIsPrefixOfFrames : Prop :=
  ∀ (s t : State) (n : Nat), PostReset s → ResetFree n s → run n s = .next t →
    ∃ (newTaken : List InputTransaction) (newSent : List OutputTransaction),
      t.taken = s.taken ++ newTaken ∧ t.sent = s.sent ++ newSent ∧
      sentBytes newSent <+: frames (takenValues newTaken) ∧
      (inReady t = some true → sentBytes newSent = frames (takenValues newTaken)) ∧
      frames (takenValues newTaken.dropLast) <+: sentBytes newSent

/-- R126: two reset-free runs that take the same values, whatever their `out_ready` patterns, send byte sequences one of
which is a prefix of the other; and a byte on offer that is not taken is on offer in the next period. -/
def Obligations.BackpressureOnlyDelays : Prop :=
  (∀ (s s' t t' : State) (n n' : Nat) (a a' : List InputTransaction) (b b' : List OutputTransaction),
    PostReset s → PostReset s' → ResetFree n s → ResetFree n' s' → run n s = .next t → run n' s' = .next t' →
    t.taken = s.taken ++ a → t'.taken = s'.taken ++ a' → t.sent = s.sent ++ b → t'.sent = s'.sent ++ b' →
    takenValues a = takenValues a' →
    sentBytes b <+: sentBytes b' ∨ sentBytes b' <+: sentBytes b) ∧
  (∀ s t : State, (pinsNow s).rst = false → outValid s = some true → (pinsNow s).outReady = false →
    step s = .next t → outValid t = some true ∧ outData t = outData s)

/-- R33: the unspecified register values of a post-reset state never reach a pin. Two post-reset states with the same
script, tick and observation, and any registers, run alike: the same transactions at the same ticks and the same
outputs at every tick, resets included. -/
def Obligations.UnspecifiedRegistersNeverShow : Prop :=
  ∀ (s s' t : State) (n : Nat), PostReset s → PostReset s' →
    s'.script = s.script → s'.tick = s.tick → s'.taken = s.taken → s'.sent = s.sent → run n s = .next t →
    ∃ t' : State, run n s' = .next t' ∧ t'.taken = t.taken ∧ t'.sent = t.sent ∧
      inReady t' = inReady t ∧ outValid t' = outValid t ∧ outData t' = outData t

/-- R93, R94, R173: after ACCEPT the machine is in `CONV` for exactly `digit_count` ticks, nothing can stall it, and it
enters `LEAD` with the digits in the buffer. -/
def Obligations.ConversionTakesDigitCountTicks : Prop :=
  ∀ (s : State) (n : Nat), PostReset s → (pinsAt s 0).inValid = true →
    n = digitCount (magnitude (pinsAt s 0).inData) → ResetFree (n + 1) s →
    (∀ k, 1 ≤ k → k ≤ n → ∃ t : State, run k s = .next t ∧ t.state = Phase.conv.code) ∧
    operations (n + 1) s = .accept :: List.replicate (n - 1) .convStep ++ [.convLast] ∧
    ∃ t : State, run (n + 1) s = .next t ∧ t.state = Phase.lead.code ∧ t.val = (pinsAt s 0).inData ∧
      t.sign = decide (s32 (pinsAt s 0).inData < 0) ∧ t.mag = 0#32 ∧ t.count.toNat = n ∧ t.cursor.toNat = n - 1 ∧
      bufDigits t.buf n = digitsLsf (magnitude (pinsAt s 0).inData) ∧ t.sent = s.sent ∧
      t.taken = s.taken ++ [⟨s.tick, (pinsAt s 0).inData⟩]

/-- R173, R109, R110: from any post-reset state, a value offered at the first tick and a consumer ready during emission:
the whole frame goes out, byte by byte, on the ticks R173 gives, and the block is idle `2n + 3` ticks after. -/
def Obligations.PrintTakesTwoNPlusThreeTicks : Prop :=
  ∀ (s : State) (n : Nat), PostReset s → (pinsAt s 0).inValid = true →
    n = digitCount (magnitude (pinsAt s 0).inData) → ResetFree (2 * n + 3) s →
    (∀ k, n < k → k < 2 * n + 3 → (pinsAt s k).outReady = true) →
    ∃ t : State, run (2 * n + 3) s = .next t ∧ PostReset t ∧ t.tick = s.tick + (2 * n + 3) ∧
      t.taken = s.taken ++ [⟨s.tick, (pinsAt s 0).inData⟩] ∧
      t.sent = s.sent ++ stamped (s.tick + n + 1) (frame (s32 (pinsAt s 0).inData))

/-- R73: what `PRINT v` performs, and that the script after it is left as it was. -/
def Obligations.PrintOperationSequence : Prop :=
  ∀ (s : State) (v : Int) (n : Nat) (other : Word) (l : List Pins), PostReset s →
    -2147483648 ≤ v → v ≤ 2147483647 → n = digitCount v.natAbs → s.script = printScript v other ++ l →
    operations (2 * n + 3) s = .accept :: (List.replicate (n - 1) .convStep ++ [.convLast, .leadSend] ++
      List.replicate (n - 1) .digitSend ++ [.digitLast, .trailSend]) ∧
    ∃ t : State, run (2 * n + 3) s = .next t ∧ PostReset t ∧ t.script = l ∧
      sentBytes t.sent = sentBytes s.sent ++ frame v

/-- R125, R83: "Issuing the same value twice in sequence (after full drain) yields two identical frames." -/
def Obligations.SameValueTwiceTwoIdenticalFrames : Prop :=
  ∀ (s : State) (v : Int) (n : Nat) (other : Word) (l : List Pins), PostReset s →
    -2147483648 ≤ v → v ≤ 2147483647 → n = digitCount v.natAbs →
    s.script = printScript v other ++ (printScript v other ++ l) →
    ∃ t : State, run ((2 * n + 3) + (2 * n + 3)) s = .next t ∧ PostReset t ∧
      sentBytes t.sent = sentBytes s.sent ++ (frame v ++ frame v)

/-- R130, made bounded: a request in flight is completed once the consumer was ready on twelve ticks after the first
ten; nothing else can delay it. The premise counts ready ticks only, not where they stand. -/
def Obligations.ReadyConsumerCompletesFrame : Prop :=
  ∀ (s : State) (m : Nat), Invariant s → ResetFree m s → 12 ≤ readyTicks 10 m s →
    ∃ (k : Nat) (t : State), k ≤ m ∧ run k s = .next t ∧ t.state = Phase.idle.code

/-- R132: "Rules R124 to R130 hold of the machine": the seven fields of `MeetsContract` (Safety.lean), over every
reset-free run from every post-reset state, whatever the producer and the consumer do. The bounds eleven, ten and twelve
in its last field make R130 finite; they are the model's reading of R93 and R121. -/
def Obligations.ReferenceMachineMeetsContract : Prop := MeetsContract

/-! ### The pure functions and the frame -/

/-- R87: `abs32` is the magnitude, for every word, and at most 2^31. -/
def Obligations.AbsIsMagnitude : Prop :=
  (∀ w : Word, abs32 w = (if w.getLsbD 31 then 0#32 - w else w) ∧ (abs32 w).toNat = (s32 w).natAbs ∧ (s32 w).natAbs ≤ 2147483648 ∧ s32 w = w.toInt) ∧
  abs32 0x80000000#32 = 0x80000000#32

/-- R90: `digits_lsf` is the do-while loop, has digits only, its value is `m`, and for `m >= 1` its last entry is not 0
and it has `floor(log10 m) + 1` entries. -/
def Obligations.DigitsOfANumber : Prop :=
  ∀ m : Nat,
    digitsLsf m = (if m / 10 = 0 then [m % 10] else m % 10 :: digitsLsf (m / 10)) ∧
    (∀ d ∈ digitsLsf m, d ≤ 9) ∧ digitsValue (digitsLsf m) = m ∧
    (1 ≤ m → (digitsLsf m).getLast? ≠ some 0 ∧ (digitsLsf m).length = Nat.log 10 m + 1) ∧
    digitsLsf 0 = [0] ∧ digitsMsf m = (digitsLsf m).reverse

/-- R91: `digit_count`. -/
def Obligations.DigitCountOfANumber : Prop :=
  ∀ m : Nat,
    digitCount m = (digitsLsf m).length ∧ (m ≤ 9 → digitCount m = 1) ∧
    (∀ k, 1 ≤ k → 10 ^ (k - 1) ≤ m → m < 10 ^ k → digitCount m = k) ∧
    1 ≤ digitCount m ∧ m < 10 ^ digitCount m ∧ (m ≤ 4294967295 → digitCount m ≤ 10)

/-- R121: length of a frame. -/
def Obligations.FrameLength : Prop :=
  ∀ v : Int,
    (frame v).length = 1 + digitCount v.natAbs + 1 ∧ digitCount 0 = 1 ∧
    (-2147483648 ≤ v → v ≤ 2147483647 →
      digitCount v.natAbs ≤ 10 ∧ 3 ≤ (frame v).length ∧ (frame v).length ≤ 12 ∧
      (v.natAbs ≤ 9 → (frame v).length = 3) ∧ (1000000000 ≤ v.natAbs → (frame v).length = 12))

/-- R122: shape of a frame, (a) to (f). -/
def Obligations.FrameShape : Prop :=
  ∀ v : Int,
    ((frame v)[0]? = some 0x20#8 ∨ (frame v)[0]? = some 0x2D#8) ∧
    (∀ i, 1 ≤ i → i ≤ digitCount v.natAbs →
      ∃ b : Byte, (frame v)[i]? = some b ∧ 0x30 ≤ b.toNat ∧ b.toNat ≤ 0x39 ∧ b ≠ 0x20#8) ∧
    (digitCount v.natAbs ≠ 1 → (frame v)[1]? ≠ some 0x30#8) ∧
    (frame v)[digitCount v.natAbs + 1]? = some 0x20#8 ∧
    (∀ v' : Int, frame v = frame v' → v = v')

/-- R123: a concatenation of frames can be cut back into frames in one way only, even when more bytes follow it. -/
def Obligations.FrameStreamSelfDelimiting : Prop :=
  (∀ vs ws : List Int, frames vs = frames ws → vs = ws) ∧
  (∀ (v w : Int) (x y : List Byte), frame v ++ x = frame w ++ y → v = w ∧ x = y)

/-- R133: the source's nine concrete cases. -/
def Obligations.SourceFrames : Prop :=
  frame 0 = [0x20#8, 0x30#8, 0x20#8] ∧
  frame 9 = [0x20#8, 0x39#8, 0x20#8] ∧
  frame (-7) = [0x2D#8, 0x37#8, 0x20#8] ∧
  frame 10 = [0x20#8, 0x31#8, 0x30#8, 0x20#8] ∧
  frame 10009 = [0x20#8, 0x31#8, 0x30#8, 0x30#8, 0x30#8, 0x39#8, 0x20#8] ∧
  frame 32767 = [0x20#8, 0x33#8, 0x32#8, 0x37#8, 0x36#8, 0x37#8, 0x20#8] ∧
  frame (-32768) = [0x2D#8, 0x33#8, 0x32#8, 0x37#8, 0x36#8, 0x38#8, 0x20#8] ∧
  frame 2147483647 =
    [0x20#8, 0x32#8, 0x31#8, 0x34#8, 0x37#8, 0x34#8, 0x38#8, 0x33#8, 0x36#8, 0x34#8, 0x37#8, 0x20#8] ∧
  frame (-2147483648) =
    [0x2D#8, 0x32#8, 0x31#8, 0x34#8, 0x37#8, 0x34#8, 0x38#8, 0x33#8, 0x36#8, 0x34#8, 0x38#8, 0x20#8]
end

