-- ==== Sys2Proof/Laws/Contract.lean ====
section
/-! SUPPORT. The small lemmas of the contract's terms (43_frame_contract.md section 2). -/

namespace Sys2Proof.Machine

variable {s t : State}

@[simp] theorem requests_self (s : State) : requests s s = [] := by simp [requests, takenValues]

@[simp] theorem bytesSent_self (s : State) : bytesSent s s = [] := by simp [bytesSent, sentBytes]

/-- The requests of a run are the values of what it added to the record. -/
theorem requests_of_append {l : List InputTransaction} (h : t.taken = s.taken ++ l) : requests s t = takenValues l := by
  simp [requests, h]

/-- The bytes of a run are those of what it added to the record. -/
theorem bytesSent_of_append {l : List OutputTransaction} (h : t.sent = s.sent ++ l) : bytesSent s t = sentBytes l := by
  simp [bytesSent, h]

theorem contractRun_zero (h : PostReset s) : ContractRun 0 s s :=
  ⟨h, fun k hk => absurd hk (Nat.not_lt_zero k), rfl⟩

end Sys2Proof.Machine
end

