-- ==== Sys2Proof/Laws/Memory.lean ====
section
/-! SUPPORT. The laws of the digit buffer: read after write (20_memory.md R37, R38), and that every operation keeps
the canonical form. -/

namespace Sys2Proof.Machine

@[simp] theorem Memory.read_nil (i : Nat) : Memory.read [] i = Memory.unlisted := rfl

@[simp] theorem Memory.read_cons (a : Nat) (d : Slot) (m : Memory) (i : Nat) :
    Memory.read ((a, d) :: m) i = if a = i then d else Memory.read m i := rfl

theorem Memory.read_erase (m : Memory) (i j : Nat) :
    Memory.read (Memory.erase m i) j = if j = i then Memory.unlisted else Memory.read m j := by
  induction m with
  | nil => simp [Memory.erase]
  | cons c m ih =>
    obtain ⟨a, d⟩ := c
    by_cases h : a = i
    · subst h
      by_cases hj : j = a
      · subst hj; simpa [Memory.erase] using ih
      · simp [Memory.erase, ih, hj, Ne.symm hj]
    · by_cases hj : j = i
      · subst hj; simp [Memory.erase, ih, h]
      · simp [Memory.erase, ih, h, hj]

theorem Memory.read_insert_self (m : Memory) (i : Nat) (d : Slot)
    (h : ∀ c ∈ m, c.1 ≠ i) : Memory.read (Memory.insert m i d) i = d := by
  induction m with
  | nil => simp [Memory.insert]
  | cons c m ih =>
    obtain ⟨a, e⟩ := c
    have ha : a ≠ i := h (a, e) (by simp)
    have hm := ih fun c hc => h c (by simp [hc])
    by_cases hi : i < a <;> simp [Memory.insert, hi, ha, hm]

theorem Memory.read_insert_other (m : Memory) (i j : Nat) (d : Slot) (h : j ≠ i) :
    Memory.read (Memory.insert m i d) j = Memory.read m j := by
  induction m with
  | nil => simp [Memory.insert, h.symm]
  | cons c m ih =>
    obtain ⟨a, e⟩ := c
    by_cases hi : i < a <;> simp [Memory.insert, hi, ih, h.symm]

theorem Memory.fst_of_mem_erase {m : Memory} {i : Nat} {c : Nat × Slot} (h : c ∈ Memory.erase m i) :
    c ∈ m ∧ c.1 ≠ i := by
  induction m with
  | nil => simp [Memory.erase] at h
  | cons x m ih =>
    obtain ⟨a, e⟩ := x
    by_cases ha : a = i
    · simp only [Memory.erase, ha, if_true] at h
      exact ⟨List.mem_cons_of_mem _ (ih h).1, (ih h).2⟩
    · simp only [Memory.erase, ha, if_false, List.mem_cons] at h
      rcases h with rfl | h
      · exact ⟨by simp, ha⟩
      · exact ⟨List.mem_cons_of_mem _ (ih h).1, (ih h).2⟩

/-- R37: a write is read back at its slot, and every other slot reads as before. -/
theorem Memory.read_write (m : Memory) (i j : Nat) (d : Slot) :
    Memory.read (Memory.write m i d) j = if j = i then d else Memory.read m j := by
  unfold Memory.write
  by_cases hd : d = Memory.unlisted
  · simp [hd, Memory.read_erase]
  · by_cases hj : j = i
    · subst hj
      simp only [hd, if_false, if_true]
      exact Memory.read_insert_self _ _ _ fun c hc => (Memory.fst_of_mem_erase hc).2
    · simp [hd, hj, Memory.read_insert_other, Memory.read_erase]

theorem Memory.wf_cons {a : Nat} {d : Slot} {m : Memory} :
    Memory.wf ((a, d) :: m) = true ↔
      a < Config.bufCap ∧ d ≠ Memory.unlisted ∧ (∀ c ∈ m, a < c.1) ∧ Memory.wf m = true := by
  simp [Memory.wf, and_assoc]

theorem Memory.wf_erase {m : Memory} (i : Nat) (h : Memory.wf m = true) : Memory.wf (Memory.erase m i) = true := by
  induction m with
  | nil => rfl
  | cons c m ih =>
    obtain ⟨a, e⟩ := c
    obtain ⟨h1, h2, h3, h4⟩ := Memory.wf_cons.1 h
    by_cases ha : a = i
    · simpa [Memory.erase, ha] using ih h4
    · simp only [Memory.erase, ha, if_false]
      exact Memory.wf_cons.2 ⟨h1, h2, fun c hc => h3 c (Memory.fst_of_mem_erase hc).1, ih h4⟩

theorem Memory.mem_insert {m : Memory} {i : Nat} {d : Slot} {c : Nat × Slot}
    (h : c ∈ Memory.insert m i d) : c = (i, d) ∨ c ∈ m := by
  induction m with
  | nil => simpa [Memory.insert] using h
  | cons x m ih =>
    obtain ⟨a, e⟩ := x
    by_cases hi : i < a
    · simpa [Memory.insert, hi] using h
    · simp only [Memory.insert, hi, if_false, List.mem_cons] at h
      rcases h with h | h
      · simp [h]
      · rcases ih h with h | h <;> simp [h]

theorem Memory.wf_insert {m : Memory} {i : Nat} {d : Slot} (h : Memory.wf m = true) (hi : i < Config.bufCap)
    (hd : d ≠ Memory.unlisted) (hm : ∀ c ∈ m, c.1 ≠ i) : Memory.wf (Memory.insert m i d) = true := by
  induction m with
  | nil => exact Memory.wf_cons.2 ⟨hi, hd, by simp, rfl⟩
  | cons x m ih =>
    obtain ⟨a, e⟩ := x
    obtain ⟨h1, h2, h3, h4⟩ := Memory.wf_cons.1 h
    have ha : a ≠ i := hm (a, e) (by simp)
    by_cases hia : i < a
    · simp only [Memory.insert, hia, if_true]
      refine Memory.wf_cons.2 ⟨hi, hd, ?_, h⟩
      intro c hc
      rcases List.mem_cons.1 hc with rfl | hc
      · exact hia
      · exact hia.trans (h3 c hc)
    · simp only [Memory.insert, hia, if_false]
      refine Memory.wf_cons.2 ⟨h1, h2, ?_, ih h4 fun c hc => hm c (by simp [hc])⟩
      intro c hc
      rcases Memory.mem_insert hc with rfl | hc
      · show a < i
        omega
      · exact h3 c hc

/-- A write to one of the ten slots keeps the canonical form. -/
theorem Memory.wf_write {m : Memory} {i : Nat} (d : Slot) (h : Memory.wf m = true) (hi : i < Config.bufCap) :
    Memory.wf (Memory.write m i d) = true := by
  unfold Memory.write
  split
  · exact Memory.wf_erase i h
  · next hd => exact Memory.wf_insert (Memory.wf_erase i h) hi hd fun c hc => (Memory.fst_of_mem_erase hc).2

theorem Memory.wf_reset : Memory.wf State.reset.buf = true := rfl

theorem Memory.read_below {m : Memory} {i : Nat} (h : ∀ c ∈ m, i < c.1) : Memory.read m i = Memory.unlisted := by
  induction m with
  | nil => rfl
  | cons c m ih =>
    obtain ⟨a, d⟩ := c
    have ha : i < a := h (a, d) (by simp)
    simp [show a ≠ i by omega, ih fun c hc => h c (by simp [hc])]

/-- Two buffers in canonical form that read alike are the same list. -/
theorem Memory.eq_of_read {m n : Memory} (hm : Memory.wf m = true) (hn : Memory.wf n = true)
    (h : ∀ i, Memory.read m i = Memory.read n i) : m = n := by
  induction m generalizing n with
  | nil =>
    cases n with
    | nil => rfl
    | cons c n =>
      obtain ⟨b, e⟩ := c
      have := (Memory.wf_cons.1 hn).2.1
      have h0 := h b
      simp at h0
      exact absurd h0.symm this
  | cons c m ih =>
    obtain ⟨a, d⟩ := c
    obtain ⟨-, hd, hlt, hwf⟩ := Memory.wf_cons.1 hm
    cases n with
    | nil =>
      have h0 := h a
      simp at h0
      exact absurd h0 hd
    | cons x n =>
      obtain ⟨b, e⟩ := x
      obtain ⟨-, he, hlt', hwf'⟩ := Memory.wf_cons.1 hn
      have hab : a = b := by
        rcases Nat.lt_trichotomy a b with hab | hab | hab
        · have h0 := h a
          rw [Memory.read_cons, if_pos rfl, Memory.read_below (m := (b, e) :: n)] at h0
          · exact absurd h0 hd
          · intro c hc
            rcases List.mem_cons.1 hc with rfl | hc
            · exact hab
            · exact hab.trans (hlt' c hc)
        · exact hab
        · have h0 := h b
          rw [Memory.read_cons (a := b), if_pos rfl, Memory.read_below (m := (a, d) :: m)] at h0
          · exact absurd h0.symm he
          · intro c hc
            rcases List.mem_cons.1 hc with rfl | hc
            · exact hab
            · exact hab.trans (hlt c hc)
      subst hab
      have hde : d = e := by simpa using h a
      subst hde
      rw [ih hwf hwf' fun i => ?_]
      by_cases hi : a = i
      · subst hi; rw [Memory.read_below hlt, Memory.read_below hlt']
      · simpa [hi] using h i

end Sys2Proof.Machine
end

