-- ==== Sys2Proof/Laws/State.lean ====
section
/-! SUPPORT. One lemma per field per update of the state. -/

namespace Sys2Proof.Machine

variable (s : State)

@[simp] theorem goto_state (p : Phase) : (goto p s).state = p.code := rfl
@[simp] theorem goto_val (p : Phase) : (goto p s).val = s.val := rfl
@[simp] theorem goto_sign (p : Phase) : (goto p s).sign = s.sign := rfl
@[simp] theorem goto_mag (p : Phase) : (goto p s).mag = s.mag := rfl
@[simp] theorem goto_count (p : Phase) : (goto p s).count = s.count := rfl
@[simp] theorem goto_cursor (p : Phase) : (goto p s).cursor = s.cursor := rfl
@[simp] theorem goto_buf (p : Phase) : (goto p s).buf = s.buf := rfl
@[simp] theorem goto_script (p : Phase) : (goto p s).script = s.script := rfl
@[simp] theorem goto_tick (p : Phase) : (goto p s).tick = s.tick := rfl
@[simp] theorem goto_taken (p : Phase) : (goto p s).taken = s.taken := rfl
@[simp] theorem goto_sent (p : Phase) : (goto p s).sent = s.sent := rfl

@[simp] theorem send_state (b : Byte) : (send b s).state = s.state := rfl
@[simp] theorem send_val (b : Byte) : (send b s).val = s.val := rfl
@[simp] theorem send_sign (b : Byte) : (send b s).sign = s.sign := rfl
@[simp] theorem send_mag (b : Byte) : (send b s).mag = s.mag := rfl
@[simp] theorem send_count (b : Byte) : (send b s).count = s.count := rfl
@[simp] theorem send_cursor (b : Byte) : (send b s).cursor = s.cursor := rfl
@[simp] theorem send_buf (b : Byte) : (send b s).buf = s.buf := rfl
@[simp] theorem send_script (b : Byte) : (send b s).script = s.script := rfl
@[simp] theorem send_tick (b : Byte) : (send b s).tick = s.tick := rfl
@[simp] theorem send_taken (b : Byte) : (send b s).taken = s.taken := rfl
@[simp] theorem send_sent (b : Byte) : (send b s).sent = s.sent ++ [⟨s.tick, b⟩] := rfl

@[simp] theorem recv_state : (recv s).state = s.state := rfl
@[simp] theorem recv_val : (recv s).val = s.val := rfl
@[simp] theorem recv_sign : (recv s).sign = s.sign := rfl
@[simp] theorem recv_mag : (recv s).mag = s.mag := rfl
@[simp] theorem recv_count : (recv s).count = s.count := rfl
@[simp] theorem recv_cursor : (recv s).cursor = s.cursor := rfl
@[simp] theorem recv_buf : (recv s).buf = s.buf := rfl
@[simp] theorem recv_script : (recv s).script = s.script := rfl
@[simp] theorem recv_tick : (recv s).tick = s.tick := rfl
@[simp] theorem recv_taken : (recv s).taken = s.taken ++ [⟨s.tick, (pinsNow s).inData⟩] := rfl
@[simp] theorem recv_sent : (recv s).sent = s.sent := rfl

@[simp] theorem nextTick_state : (nextTick s).state = s.state := rfl
@[simp] theorem nextTick_val : (nextTick s).val = s.val := rfl
@[simp] theorem nextTick_sign : (nextTick s).sign = s.sign := rfl
@[simp] theorem nextTick_mag : (nextTick s).mag = s.mag := rfl
@[simp] theorem nextTick_count : (nextTick s).count = s.count := rfl
@[simp] theorem nextTick_cursor : (nextTick s).cursor = s.cursor := rfl
@[simp] theorem nextTick_buf : (nextTick s).buf = s.buf := rfl
@[simp] theorem nextTick_script : (nextTick s).script = s.script.tail := rfl
@[simp] theorem nextTick_tick : (nextTick s).tick = s.tick + 1 := rfl
@[simp] theorem nextTick_taken : (nextTick s).taken = s.taken := rfl
@[simp] theorem nextTick_sent : (nextTick s).sent = s.sent := rfl

end Sys2Proof.Machine
end

