-- ==== Sys2Proof/Laws/Ops.lean ====
section
/-! SUPPORT. What each shared operation can do, said once. -/

namespace Sys2Proof.Machine

variable {s t u : State}

theorem andThen_next {o : Host.Outcome State Fault Refusal} {f : State → State} :
    andThen o f = .next t ↔ ∃ u, o = .next u ∧ f u = t := by
  cases o <;> simp [andThen]

@[simp] theorem andThen_of_next (f : State → State) : andThen (.next s) f = .next (f s) := rfl

@[simp] theorem andThen_of_refused (r : Refusal) (f : State → State) : andThen (.refused r) f = .refused r := rfl

theorem memRead_eq_some {m : Memory} {i : Index} {d : Slot} :
    memRead m i = some d ↔ i.toNat < Config.bufCap ∧ Memory.read m i.toNat = d := by
  unfold memRead; split <;> simp [*]

theorem memRead_of_lt {m : Memory} {i : Index} (h : i.toNat < Config.bufCap) :
    memRead m i = some (Memory.read m i.toNat) := if_pos h

theorem memWrite_eq_some {m m' : Memory} {i : Index} {d : Slot} :
    memWrite m i d = some m' ↔ i.toNat < Config.bufCap ∧ Memory.write m i.toNat d = m' := by
  unfold memWrite; split <;> simp [*]

theorem memWrite_of_lt {m : Memory} {i : Index} (d : Slot) (h : i.toNat < Config.bufCap) :
    memWrite m i d = some (Memory.write m i.toNat d) := if_pos h

/-- `storeDigit` completes exactly when `count` addresses a slot. -/
theorem storeDigit_next : storeDigit s = .next t ↔
    s.count.toNat < Config.bufCap ∧
      t = { s with buf := Memory.write s.buf s.count.toNat (lowDigit s.mag), count := s.count + 1#4 } := by
  unfold storeDigit memWrite
  split
  · next m h =>
    split at h
    · simp_all [eq_comm]
    · simp at h
  · next h =>
    split at h
    · simp at h
    · simp_all

theorem storeDigit_of_lt (h : s.count.toNat < Config.bufCap) : storeDigit s =
    .next { s with buf := Memory.write s.buf s.count.toNat (lowDigit s.mag), count := s.count + 1#4 } :=
  storeDigit_next.2 ⟨h, rfl⟩

theorem storeDigit_of_ge (h : ¬ s.count.toNat < Config.bufCap) :
    storeDigit s = .refused (.bufferIndex s.count) := by
  simp only [storeDigit, memWrite, if_neg h]

/-- `sendSlot` completes exactly when the index addresses a slot. -/
theorem sendSlot_next {i : Index} : sendSlot i s = .next t ↔
    i.toNat < Config.bufCap ∧ t = send (digitByte (Memory.read s.buf i.toNat)) s := by
  unfold sendSlot memRead
  split
  · next d h =>
    split at h
    · simp_all [eq_comm]
    · simp at h
  · next h =>
    split at h
    · simp at h
    · simp_all

theorem sendSlot_of_lt {i : Index} (h : i.toNat < Config.bufCap) :
    sendSlot i s = .next (send (digitByte (Memory.read s.buf i.toNat)) s) :=
  sendSlot_next.2 ⟨h, rfl⟩

theorem sendSlot_of_ge {i : Index} (h : ¬ i.toNat < Config.bufCap) :
    sendSlot i s = .refused (.bufferIndex i) := by
  simp only [sendSlot, memRead, if_neg h]

/-- The pins move one tick nearer when a tick ends; nothing but `tick` and `script` bears on them. -/
theorem pinsAt_nextTick (h : u.tick = s.tick) (h' : u.script = s.script) (k : Nat) :
    pinsAt (nextTick u) k = pinsAt s (k + 1) := by
  unfold pinsAt
  simp only [nextTick_script, nextTick_tick, h, h', List.getElem?_tail]
  rw [show s.tick + 1 + k = s.tick + (k + 1) by omega]

theorem pinsAt_script_cons (s : State) (p : Pins) (l : List Pins) :
    pinsNow { s with script := p :: l } = p := rfl

theorem phase?_eq (p : Phase) : phase? s = some p ↔ s.state = p.code := by
  have key : ∀ (c : StateCode) (p : Phase), Phase.ofCode? c = some p ↔ c = p.code := by
    intro c p
    cases p <;> revert c <;> decide
  exact key s.state p

end Sys2Proof.Machine
end

