-- ==== Sys2Proof/Laws/PerInstr.lean ====
section
/-! SUPPORT. Family `SelectorEncoding`: R62's `encoding` column and its `mask`/`match` columns say the same of an
operation's fixed bits. -/

namespace Sys2Proof.Laws.SelectorEncoding

/-- The row of R62 for `i` has as mask the bits that are not letters and as match the fixed bits, and the fixed bits
with no ignored bit set decode to `i`. -/
def Statement (i : Instr) : Prop :=
  ⟨i, ~~~ignoredBits i, fixedBits i⟩ ∈ operationMap ∧ decode (fixedBits i) = .ok i

theorem reset : Statement .reset := ⟨by decide, by decide⟩
theorem idleWait : Statement .idleWait := ⟨by decide, by decide⟩
theorem accept : Statement .accept := ⟨by decide, by decide⟩
theorem convStep : Statement .convStep := ⟨by decide, by decide⟩
theorem convLast : Statement .convLast := ⟨by decide, by decide⟩
theorem leadHold : Statement .leadHold := ⟨by decide, by decide⟩
theorem leadSend : Statement .leadSend := ⟨by decide, by decide⟩
theorem digitHold : Statement .digitHold := ⟨by decide, by decide⟩
theorem digitSend : Statement .digitSend := ⟨by decide, by decide⟩
theorem digitLast : Statement .digitLast := ⟨by decide, by decide⟩
theorem trailHold : Statement .trailHold := ⟨by decide, by decide⟩
theorem trailSend : Statement .trailSend := ⟨by decide, by decide⟩

end Sys2Proof.Laws.SelectorEncoding
end

