-- ==== Sys2Proof/Laws/Step.lean ====
section
/-! SUPPORT. What one operation and one tick can do, said once: later proofs split on these and do not unfold `exec` or
`step`. -/

namespace Sys2Proof.Machine

variable {s t u : State} {i : Instr}

/-- Every operation's next state, operation by operation. -/
theorem exec_next : exec i s = .next t ↔
    match i with
    | .reset => t = goto .idle s
    | .idleWait => t = s
    | .accept => t = goto .conv { recv s with val := (pinsNow s).inData, sign := signOf (pinsNow s).inData,
                                              mag := abs32 (pinsNow s).inData, count := 0#4 }
    | .convStep => s.count.toNat < Config.bufCap ∧
        t = { s with buf := Memory.write s.buf s.count.toNat (lowDigit s.mag), count := s.count + 1#4,
                     mag := quotient s.mag }
    | .convLast => s.count.toNat < Config.bufCap ∧
        t = { s with buf := Memory.write s.buf s.count.toNat (lowDigit s.mag), count := s.count + 1#4,
                     mag := 0#32, cursor := s.count, state := Phase.lead.code }
    | .leadHold => t = s
    | .leadSend => t = goto .digits (send (leadByte s.sign) s)
    | .digitHold => t = s
    | .digitSend => s.cursor.toNat < Config.bufCap ∧
        t = { send (digitByte (Memory.read s.buf s.cursor.toNat)) s with cursor := s.cursor - 1#4 }
    | .digitLast => t = goto .trail (send (digitByte (Memory.read s.buf 0)) s)
    | .trailHold => t = s
    | .trailSend => t = goto .idle (send spaceByte s) := by
  cases i
  case convStep =>
    simp only [exec, execConvStep, andThen_next, storeDigit_next]
    exact ⟨fun ⟨u, ⟨h, hu⟩, ht⟩ => ⟨h, by subst hu; exact ht.symm⟩, fun ⟨h, ht⟩ => ⟨_, ⟨h, rfl⟩, ht.symm⟩⟩
  case convLast =>
    simp only [exec, execConvLast, andThen_next, storeDigit_next]
    exact ⟨fun ⟨u, ⟨h, hu⟩, ht⟩ => ⟨h, by subst hu; exact ht.symm⟩, fun ⟨h, ht⟩ => ⟨_, ⟨h, rfl⟩, ht.symm⟩⟩
  case digitSend =>
    simp only [exec, execDigitSend, andThen_next, sendSlot_next]
    exact ⟨fun ⟨u, ⟨h, hu⟩, ht⟩ => ⟨h, by subst hu; exact ht.symm⟩, fun ⟨h, ht⟩ => ⟨_, ⟨h, rfl⟩, ht.symm⟩⟩
  case digitLast =>
    simp only [exec, execDigitLast, andThen_next, sendSlot_next]
    exact ⟨fun ⟨u, ⟨_, hu⟩, ht⟩ => by subst hu; exact ht.symm, fun ht => ⟨_, ⟨by decide, rfl⟩, ht.symm⟩⟩
  all_goals
    simp [exec, execReset, execIdleWait, execAccept, execLeadHold, execLeadSend, execDigitHold, execTrailHold,
      execTrailSend, eq_comm]

/-- A tick has a next state exactly when an operation is selected and has one. -/
theorem step_next : step s = .next t ↔
    ∃ i u, operation s = .ok i ∧ exec i s = .next u ∧ t = nextTick u := by
  unfold step
  split
  · next i h => simp [h, andThen_next, eq_comm (a := t)]
  · next c h => simp [h]

theorem step_of_exec (h : operation s = .ok i) (hu : exec i s = .next u) : step s = .next (nextTick u) :=
  step_next.2 ⟨i, u, h, hu, rfl⟩

@[simp] theorem run_zero (s : State) : run 0 s = .next s := rfl

theorem run_succ {n : Nat} : run (n + 1) s = .next t ↔ ∃ u, step s = .next u ∧ run n u = .next t := by
  simp only [run]
  cases step s <;> simp

theorem run_add {m n : Nat} : run (m + n) s = .next t ↔ ∃ u, run m s = .next u ∧ run n u = .next t := by
  induction m generalizing s with
  | zero => simp
  | succ m ih =>
    rw [Nat.succ_add, run_succ]
    simp only [ih, run_succ]
    constructor
    · rintro ⟨v, hv, w, hw, ht⟩; exact ⟨w, ⟨v, hv, hw⟩, ht⟩
    · rintro ⟨w, ⟨v, hv, hw⟩, ht⟩; exact ⟨v, hv, w, hw, ht⟩

end Sys2Proof.Machine
end

