-- ==== Sys2Proof/Tests/Slice0.lean ====
section
/-! SUPPORT. Tests with expected results from 95_test_vectors.md and the rules' own examples (the vector or the rule is
named at each test), and for every obligation with hypotheses a witness that meets them. -/

namespace Sys2Proof.Tests

open Sys2Proof Sys2Proof.Machine

/-- The next state, if there is one. -/
def nextOf (o : Host.Outcome State Fault Refusal) : Option State :=
  match o with
  | .next t    => some t
  | .fault _   => none
  | .refused _ => none

/-- The reason of a refusal, if there is one. -/
def refusalOf (o : Host.Outcome State Fault Refusal) : Option Refusal :=
  match o with
  | .next _    => none
  | .fault _   => none
  | .refused r => some r

/-- Slots 0 to 9. -/
def slots (t : State) : List Nat := bufDigits t.buf 10

/-- A state in phase `p` whose next tick has the pins `pins`. -/
def at' (p : Phase) (pins : Pins) : State := { State.reset with state := p.code, script := [pins] }

/-- In `CONV` with `mag`, `count`; every pin that is ignored is 1. -/
def conv (mag : Word) (count : Index) : State :=
  { at' .conv ⟨false, true, 5#32, true⟩ with mag := mag, count := count, cursor := 3#4 }

/-- Buffer of the request -2147483648 (program P3), least significant digit first. -/
def bufMin : Memory := [(0, 8), (1, 4), (2, 6), (3, 3), (4, 8), (5, 4), (6, 7), (7, 4), (8, 1), (9, 2)]

/-- In an emission state of the request -2147483648, with `cursor` and `out_ready`; a value is offered. -/
def emit (p : Phase) (cursor : Index) (ready : Bool) : State :=
  { at' p ⟨false, true, 5#32, ready⟩ with
    val := 0x80000000#32, sign := true, count := 10#4, cursor := cursor, buf := bufMin }

/-- In `IDLE` with other registers as after the request -2147483648. -/
def idle (inValid : Bool) (w : Word) : State :=
  { emit .idle 0#4 true with script := [⟨false, inValid, w, true⟩] }

/-! ### WellFormed refuses ill-formed encodings -/

/-- R62: a bit the operation decodes may not stand in `rest`: bit 7 of RESET, `iv` of ACCEPT, `qz` of CONV_LAST, `cz` of
DIGIT_SEND, `or` of TRAIL_SEND. -/
theorem test_wellFormed_refuses_decoded_bits :
    wellFormed .reset 0x80#8 = false ∧ wellFormed .accept 0x08#8 = false ∧ wellFormed .convLast 0x02#8 = false ∧
    wellFormed .digitSend 0x01#8 = false ∧ wellFormed .trailSend 0x04#8 = false := by decide

/-- R56: codes 5 and 7 are no states. -/
theorem test_legalCode_refuses : legalCode 5#3 = false ∧ legalCode 7#3 = false ∧ legalCode 4#3 = true := by decide

/-- R66: 0x50 and 0x7F are illegal, their neighbours 0x4F and 0x80 are not. -/
theorem test_legalSelector_refuses :
    legalSelector 0x50#8 = false ∧ legalSelector 0x7F#8 = false ∧ legalSelector 0x4F#8 = true ∧
    legalSelector 0x80#8 = true := by decide

/-! ### Decoding, words written out from R62's encoding column -/

/-- 95_test_vectors.md section 2.2, spot checks: the lowest selector of each operation. -/
theorem test_decode_low :
    decode 0b10000000#8 = .ok .reset ∧ decode 0b00000000#8 = .ok .idleWait ∧ decode 0b00001000#8 = .ok .accept ∧
    decode 0b00010000#8 = .ok .convStep ∧ decode 0b00010010#8 = .ok .convLast ∧
    decode 0b00100000#8 = .ok .leadHold ∧ decode 0b00100100#8 = .ok .leadSend ∧
    decode 0b00110000#8 = .ok .digitHold ∧ decode 0b00110100#8 = .ok .digitSend ∧
    decode 0b00110101#8 = .ok .digitLast ∧ decode 0b01000000#8 = .ok .trailHold ∧
    decode 0b01000100#8 = .ok .trailSend := by decide

/-- Section 2.2, first table: the highest selector of each operation. -/
theorem test_decode_high :
    decode 0xFF#8 = .ok .reset ∧ decode 0x07#8 = .ok .idleWait ∧ decode 0x0F#8 = .ok .accept ∧
    decode 0x1D#8 = .ok .convStep ∧ decode 0x1F#8 = .ok .convLast ∧ decode 0x2B#8 = .ok .leadHold ∧
    decode 0x2F#8 = .ok .leadSend ∧ decode 0x3B#8 = .ok .digitHold ∧ decode 0x3E#8 = .ok .digitSend ∧
    decode 0x3F#8 = .ok .digitLast ∧ decode 0x4B#8 = .ok .trailHold ∧ decode 0x4F#8 = .ok .trailSend := by decide

/-- R62 row 9, opcode_table.json's numbering: bit 0 is the least significant bit; a longer word is none of the table's. -/
theorem test_decodeTableWord :
    decodeTableWord 8 0x34 = some .digitSend ∧ decodeTableWord 8 0x50 = none ∧ decodeTableWord 16 0x34 = none := by
  decide

/-- R104 through `step`: set up with selector 0x36 right after reset, the step runs DIGIT_SEND (a byte goes out). -/
theorem test_withFetchWord_runs :
    (nextOf (step (State.reset.withFetchWord 8 0x36))).map (fun t => (t.state, t.cursor, sentBytes t.sent))
      = some (3#3, 0#4, [0x30#8]) := by decide

/-! ### One tick of each operation -/

/-- R160's example: pre-state `DIGITS`, `cursor = 3`, inputs `1 1 42 1`; the selector is 0xBE. -/
theorem test_reset_example :
    selector { emit .digits 3#4 true with script := [⟨true, true, 42#32, true⟩] } = 0xBE#8 ∧
    (nextOf (step { emit .digits 3#4 true with script := [⟨true, true, 42#32, true⟩] })).map
      (fun t => (t.state, t.cursor, t.count, t.taken, t.sent)) = some (0#3, 3#4, 10#4, [], []) := by decide

/-- Section 2.2, 0xD0: RESET from an illegal state code. -/
theorem test_reset_illegal_code :
    (nextOf (step { State.reset with state := 5#3, script := [⟨true, false, 0#32, false⟩] })).map
      (fun t => t.state) = some 0#3 := by decide

/-- Vector A0. -/
theorem test_idleWait_A0 :
    (nextOf (step (idle false 7#32))).map (fun t => (t.state, t.val, t.taken)) = some (0#3, 0x80000000#32, []) := by
  decide

/-- Vector A3: -1. -/
theorem test_accept_A3 :
    (nextOf (step (idle true 0xFFFFFFFF#32))).map (fun t => (t.val, t.sign, t.mag, t.count, t.state))
      = some (0xFFFFFFFF#32, true, 1#32, 0#4, 1#3) := by decide

/-- Vector A15: -2147483648; `cursor` and `buf` unchanged. -/
theorem test_accept_A15 :
    (nextOf (step { idle true 0x80000000#32 with cursor := 9#4 })).map (fun t => (t.sign, t.mag, t.cursor, slots t))
      = some (true, 0x80000000#32, 9#4, [8, 4, 6, 3, 8, 4, 7, 4, 1, 2]) := by decide

/-- Vector V4: the boundary 10, a zero digit. -/
theorem test_convStep_V4 :
    (nextOf (step { conv 10#32 0#4 with buf := [(0, 7), (1, 6)] })).map
      (fun t => (t.mag, t.count, t.cursor, t.state, slots t))
      = some (1#32, 1#4, 3#4, 1#3, [0, 6, 0, 0, 0, 0, 0, 0, 0, 0]) := by decide

/-- Vector V14: the division is unsigned. -/
theorem test_convStep_V14 :
    (nextOf (step (conv 4294967295#32 0#4))).map (fun t => (t.mag, Memory.read t.buf 0)) =
      some (429496729#32, 5#4) := by decide

/-- Vector V3: the boundary 9. -/
theorem test_convLast_V3 :
    (nextOf (step (conv 9#32 0#4))).map (fun t => (t.mag, t.count, t.cursor, t.state, Memory.read t.buf 0))
      = some (0#32, 1#4, 0#4, 2#3, 9#4) := by decide

/-- Vector V12: the tenth digit. -/
theorem test_convLast_V12 :
    (nextOf (step (conv 2#32 9#4))).map (fun t => (t.mag, t.count, t.cursor, t.state, Memory.read t.buf 9))
      = some (0#32, 10#4, 9#4, 2#3, 2#4) := by decide

/-- R101's example: `LEAD`, `sign = 1`, not ready. -/
theorem test_leadHold_example :
    outData (emit .lead 9#4 false) = some 0x2D#8 ∧
    (nextOf (step (emit .lead 9#4 false))).map (fun t => (t.state, t.sent)) = some (2#3, []) := by decide

/-- R102: a hyphen-minus for `sign = 1` (program P3, tick 11), a space for `sign = 0` (R102's example). -/
theorem test_leadSend_signs :
    (nextOf (step (emit .lead 9#4 true))).map (fun t => (t.state, sentBytes t.sent)) = some (3#3, [0x2D#8]) ∧
    (nextOf (step { emit .lead 4#4 true with sign := false })).map (fun t => (t.cursor, sentBytes t.sent))
      = some (4#4, [0x20#8]) := by decide

/-- Vector O7: the highest slot. -/
theorem test_digitHold_O7 :
    outData (emit .digits 9#4 false) = some 0x32#8 ∧
    (nextOf (step (emit .digits 9#4 false))).map (fun t => (t.state, t.cursor, t.sent)) = some (3#3, 9#4, []) := by
  decide

/-- Program P3, tick 12. -/
theorem test_digitSend_P3 :
    (nextOf (step (emit .digits 9#4 true))).map (fun t => (t.state, t.cursor, sentBytes t.sent))
      = some (3#3, 8#4, [0x32#8]) := by decide

/-- Program P3, tick 20: from slot 1 to slot 0. -/
theorem test_digitSend_to_zero :
    (nextOf (step (emit .digits 1#4 true))).map (fun t => (t.state, t.cursor, sentBytes t.sent))
      = some (3#3, 0#4, [0x34#8]) := by decide

/-- Program P3, tick 21. -/
theorem test_digitLast_P3 :
    (nextOf (step (emit .digits 0#4 true))).map (fun t => (t.state, t.cursor, sentBytes t.sent))
      = some (4#3, 0#4, [0x38#8]) := by decide

/-- R106's example: `in_valid = 1`, 5 offered, not taken. -/
theorem test_trailHold_example :
    selector (emit .trail 0#4 false) = 0x4B#8 ∧
    (nextOf (step (emit .trail 0#4 false))).map (fun t => (t.state, t.taken, t.sent)) = some (4#3, [], []) := by
  decide

/-- Program P3, tick 22, with a value offered that is not taken (R107). -/
theorem test_trailSend_P3 :
    (nextOf (step (emit .trail 0#4 true))).map (fun t => (t.state, t.taken, sentBytes t.sent))
      = some (0#3, [], [0x20#8]) := by decide

/-- U1: an illegal state code with `rst = 0`; U3: index 10 in CONV_STEP, CONV_LAST and DIGIT_SEND. -/
theorem test_refusals :
    refusalOf (step { State.reset with state := 6#3, script := [⟨false, true, 0#32, true⟩] })
      = some (.illegalStateCode 6#3) ∧
    refusalOf (step (conv 10#32 10#4)) = some (.bufferIndex 10#4) ∧
    refusalOf (step (conv 9#32 10#4)) = some (.bufferIndex 10#4) ∧
    refusalOf (step (emit .digits 10#4 true)) = some (.bufferIndex 10#4) := by decide

/-! ### Witnesses: for every obligation with hypotheses, a state and operands that meet all of them -/

/-- A stimulus line with `rst = 0`. -/
def line (inValid : Bool) (w : Word) (ready : Bool) : Pins := ⟨false, inValid, w, ready⟩

/-- In `IDLE` with the registers of a finished request and the given script. -/
def scripted (l : List Pins) : State := { idle false 0#32 with script := l }

/-- DecodeInvertsEncode: every ignored bit set, and none, for the two operations with the most and the fewest; words that
decode, at the ends of the legal ranges. -/
theorem witness_DecodeInvertsEncode :
    (wellFormed .reset 0x7F#8 = true ∧ wellFormed .digitLast 0x0A#8 = true ∧ wellFormed .digitSend 0x00#8 = true) ∧
    (decodeFull 0x00#8 = .ok (.idleWait, 0x00#8) ∧ decodeFull 0x4F#8 = .ok (.trailSend, 0x0B#8) ∧
      decodeFull 0xFF#8 = .ok (.reset, 0x7F#8)) := by decide

theorem witness_SelectorRowsDisjointAndCover :
    legalSelector 0x4F#8 = true ∧ legalSelector 0x50#8 = false ∧ decode 0x35#8 = .ok .digitLast := by decide

theorem witness_IllegalSelectorsRejected :
    decode 0x50#8 = .error (.illegalStateCode 5#3) ∧ decode 0x7F#8 = .error (.illegalStateCode 7#3) ∧
    (decode 0x4F#8 ≠ .error (.illegalStateCode 4#3)) := by decide

/-- OperationByStateAndInputs, its five phases and RESET; the state with an illegal code is RESET's. -/
theorem witness_OperationByStateAndInputs :
    (pinsNow { State.reset with state := 7#3, script := [⟨true, false, 0#32, false⟩] }).rst = true ∧
    ∀ p : Phase, (pinsNow (emit p 0#4 true)).rst = false ∧ (emit p 0#4 true).state = p.code := by
  refine ⟨by decide, fun p => ?_⟩
  cases p <;> decide

/-- IgnoredInputsHaveNoEffect: different lines that meet the premises in each kind of state. -/
theorem witness_IgnoredInputsHaveNoEffect :
    (Emitting (emit .lead 9#4 true) ∧ (emit .lead 9#4 true).state ≠ Phase.idle.code ∧
      line true 5#32 true ≠ line false 0#32 true ∧
      (line true 5#32 true).outReady = (line false 0#32 true).outReady) ∧
    ((idle true 5#32).state = Phase.idle.code ∧ ¬ Emitting (idle true 5#32) ∧
      line true 5#32 true ≠ line true 5#32 false ∧ (line true 5#32 true).inData = (line true 5#32 false).inData ∧
      line false 5#32 true ≠ line false 6#32 true) ∧
    ((conv 10#32 0#4).state = Phase.conv.code ∧ ¬ Emitting (conv 10#32 0#4) ∧
      line true 5#32 true ≠ line false 6#32 false) ∧
    (Phase.lead.code ≠ Phase.conv.code ∧ Phase.lead.code ≠ Phase.digits.code ∧ Phase.lead.code ≠ Phase.idle.code) := by
  unfold Emitting; decide

theorem witness_StepRunsDecodedOperation :
    decode (selector (emit .digits 9#4 true)) = .ok .digitSend ∧ decode (selector (conv 9#32 0#4)) = .ok .convLast := by
  decide

/-- UnspecifiedCasesRefusedByName, first clause: codes 5 and 7, the ends of the range. -/
theorem witness_UnspecifiedCasesRefusedByName_code : ∀ c ∈ [5#3, 7#3],
    (pinsNow { State.reset with state := c, script := [line true 0#32 true] }).rst = false ∧
    5 ≤ ({ State.reset with state := c, script := [line true 0#32 true] } : State).state.toNat := by decide

/-- UnspecifiedCasesRefusedByName, second clause: indexes 10 and 15, the ends of the range. -/
theorem witness_UnspecifiedCasesRefusedByName_index :
    10 ≤ (conv 10#32 10#4).count.toNat ∧ 10 ≤ (conv 10#32 15#4).count.toNat ∧
    10 ≤ (emit .digits 10#4 true).cursor.toNat ∧ 10 ≤ (emit .digits 15#4 true).cursor.toNat := by decide

/-- ResetOperation and ResetAbandonsTheFrame, with a byte on offer and from an illegal code. -/
theorem witness_ResetOperation :
    (pinsNow { emit .digits 3#4 true with script := [⟨true, true, 42#32, true⟩] }).rst = true ∧
    (pinsNow { State.reset with state := 5#3, script := [⟨true, true, 42#32, true⟩] }).rst = true := by decide

theorem witness_IdleWaitOperation :
    (idle false 7#32).state = Phase.idle.code ∧ (pinsNow (idle false 7#32)).rst = false ∧
    (pinsNow (idle false 7#32)).inValid = false := by decide

/-- For every word offered. -/
theorem witness_AcceptOperation (w : Word) :
    (idle true w).state = Phase.idle.code ∧ (pinsNow (idle true w)).rst = false ∧
    (pinsNow (idle true w)).inValid = true := ⟨rfl, rfl, rfl⟩

/-- The smallest and the largest `mag`, the first and the last slot. -/
theorem witness_ConvStepOperation : ∀ s ∈ [conv 10#32 9#4, conv 0xFFFFFFFF#32 0#4],
    s.state = Phase.conv.code ∧ (pinsNow s).rst = false ∧ 10 ≤ s.mag.toNat ∧ s.count.toNat ≤ 9 := by decide

theorem witness_ConvLastOperation : ∀ s ∈ [conv 0#32 0#4, conv 9#32 9#4],
    s.state = Phase.conv.code ∧ (pinsNow s).rst = false ∧ s.mag.toNat ≤ 9 ∧ s.count.toNat ≤ 9 := by decide

theorem witness_LeadHoldOperation :
    (emit .lead 9#4 false).state = Phase.lead.code ∧ (pinsNow (emit .lead 9#4 false)).rst = false ∧
    (pinsNow (emit .lead 9#4 false)).outReady = false := by decide

theorem witness_LeadSendOperation :
    (emit .lead 9#4 true).state = Phase.lead.code ∧ (pinsNow (emit .lead 9#4 true)).rst = false ∧
    (pinsNow (emit .lead 9#4 true)).outReady = true := by decide

/-- Slots 0 and 9, the ends of the range of the byte's clause. -/
theorem witness_DigitHoldOperation : ∀ c ∈ [0#4, 9#4],
    (emit .digits c false).state = Phase.digits.code ∧ (pinsNow (emit .digits c false)).rst = false ∧
    (pinsNow (emit .digits c false)).outReady = false ∧ (emit .digits c false).cursor.toNat ≤ 9 := by decide

/-- Slots 1 and 9, the ends of the range. -/
theorem witness_DigitSendOperation : ∀ c ∈ [1#4, 9#4],
    (emit .digits c true).state = Phase.digits.code ∧ (pinsNow (emit .digits c true)).rst = false ∧
    (pinsNow (emit .digits c true)).outReady = true ∧ 1 ≤ (emit .digits c true).cursor.toNat ∧
    (emit .digits c true).cursor.toNat ≤ 9 := by decide

theorem witness_DigitLastOperation :
    (emit .digits 0#4 true).state = Phase.digits.code ∧ (pinsNow (emit .digits 0#4 true)).rst = false ∧
    (pinsNow (emit .digits 0#4 true)).outReady = true ∧ (emit .digits 0#4 true).cursor.toNat = 0 := by decide

theorem witness_TrailHoldOperation :
    (emit .trail 0#4 false).state = Phase.trail.code ∧ (pinsNow (emit .trail 0#4 false)).rst = false ∧
    (pinsNow (emit .trail 0#4 false)).outReady = false := by decide

/-- TrailSendOperation, and the second clause of SimultaneousEvents (a value is offered). -/
theorem witness_TrailSendOperation :
    (emit .trail 0#4 true).state = Phase.trail.code ∧ (pinsNow (emit .trail 0#4 true)).rst = false ∧
    (pinsNow (emit .trail 0#4 true)).outReady = true ∧ (pinsNow (emit .trail 0#4 true)).inValid = true := by decide

/-- Indexes 0, 9, 10, 15: the ends of the two ranges. -/
theorem witness_BufferReadAfterWrite :
    (0#4).toNat ≤ 9 ∧ (9#4).toNat ≤ 9 ∧ 10 ≤ (10#4).toNat ∧ 10 ≤ (15#4).toNat ∧ (0#4) ≠ (9#4) := by decide

/-- OperationsChangeOnlyNamedRegisters: every operation has a next state somewhere. -/
theorem witness_OperationsChangeOnlyNamedRegisters (i : Instr) :
    ∃ t : State, exec i { emit .digits 9#4 true with count := 9#4 } = .next t := by
  cases i <;> exact ⟨_, rfl⟩

/-- NextStateTable, TickRecordsItsTransactions, ReadyOnlyWhenDrained, NoGapsInAFrame, and the tick clauses of
OutputsByState: a tick of each of the twelve rows has a next state. -/
theorem witness_NextStateTable :
    ∀ x ∈ [({ emit .digits 3#4 true with script := [⟨true, true, 42#32, true⟩] }, Instr.reset),
        (idle false 7#32, .idleWait), (idle true 7#32, .accept), (conv 10#32 0#4, .convStep), (conv 9#32 0#4, .convLast),
        (emit .lead 9#4 false, .leadHold), (emit .lead 9#4 true, .leadSend), (emit .digits 9#4 false, .digitHold),
        (emit .digits 9#4 true, .digitSend), (emit .digits 0#4 true, .digitLast), (emit .trail 0#4 false, .trailHold),
        (emit .trail 0#4 true, .trailSend)],
      (nextOf (step x.1)).isSome = true ∧ operation x.1 = .ok x.2 ∧ ((pinsNow x.1).rst = true ↔ x.2 = .reset) := by
  decide

/-- OutputsByState: the five states, `cursor` 0 and 9. -/
theorem witness_OutputsByState :
    (idle true 7#32).state = Phase.idle.code ∧ (conv 9#32 0#4).state = Phase.conv.code ∧
    (emit .lead 9#4 true).state = Phase.lead.code ∧
    ((emit .digits 0#4 true).state = Phase.digits.code ∧ (emit .digits 0#4 true).cursor.toNat ≤ 9) ∧
    ((emit .digits 9#4 true).state = Phase.digits.code ∧ (emit .digits 9#4 true).cursor.toNat ≤ 9) ∧
    (emit .trail 0#4 true).state = Phase.trail.code := by decide

theorem witness_OutputTransactionIffSend :
    ((emit .digits 9#4 true).state = Phase.digits.code ∧ (emit .digits 9#4 true).cursor.toNat ≤ 9) ∧
    outputTransaction (emit .digits 9#4 true) = some 0x32#8 ∧ (emit .trail 12#4 true).state ≠ Phase.digits.code := by
  decide

theorem witness_PostResetStates : PostReset (idle true 7#32) ∧ PostReset State.reset := ⟨rfl, rfl⟩

/-- A state of `CONV` (request 10009 after two digits, R97) that meets R31. -/
def conv10009 : State :=
  { conv 100#32 2#4 with val := 10009#32, buf := [(0, 9)] }

theorem conv10009_invariant : Invariant conv10009 :=
  { sign := by decide, room := by decide, sum := by decide, digits := by decide, more := by decide }

theorem emit_invariant (p : Phase) (c : Index) (ready : Bool) : EmitInvariant (emit p c ready) :=
  { sign := by show true = signOf 0x80000000#32; decide
    filled := by show 1 ≤ (10#4).toNat ∧ (10#4).toNat ≤ 10; decide
    sum := ⟨rfl, by show bufValue bufMin 10 = magnitude 0x80000000#32; decide⟩
    digits := by show ∀ i, i < (10#4).toNat → (Memory.read bufMin i).toNat ≤ 9; decide
    noLeadingZero := ⟨.inr (by show Memory.read bufMin 9 ≠ 0#4; decide),
      ⟨fun h => absurd h (by show ¬ (10 : Nat) = 1; decide),
       fun h => absurd h (by show ¬ magnitude 0x80000000#32 ≤ 9; decide)⟩⟩ }

/-- StepKeepsInvariant, InvariantStepNeverStops, WidthsSuffice, EngineDeliversDigits, OfferedBytesAreFrameBytes: states of
all five phases that meet the invariant; their ticks have next states (`witness_NextStateTable`). -/
theorem witness_Invariant :
    Invariant (idle true 7#32) ∧ Invariant conv10009 ∧ Invariant (emit .lead 9#4 true) ∧
    Invariant (emit .digits 9#4 true) ∧ Invariant (emit .digits 0#4 true) ∧ Invariant (emit .trail 0#4 true) :=
  ⟨trivial, conv10009_invariant, ⟨emit_invariant .lead 9#4 true, rfl⟩,
    ⟨emit_invariant .digits 9#4 true, Nat.le_of_ble_eq_true rfl⟩,
    ⟨emit_invariant .digits 0#4 true, Nat.le_of_ble_eq_true rfl⟩, ⟨emit_invariant .trail 0#4 true, rfl⟩⟩

theorem witness_StepKeepsInvariant :
    (Invariant conv10009 ∧ ∃ t, step conv10009 = .next t) ∧
    (Invariant (emit .digits 9#4 true) ∧ ∃ t, step (emit .digits 9#4 true) = .next t) :=
  ⟨⟨conv10009_invariant, _, rfl⟩, ⟨emit_invariant .digits 9#4 true, Nat.le_of_ble_eq_true rfl⟩, _, rfl⟩

/-- WidthsSuffice: `mag` at least 10 in `CONV`, `cursor` 0 and 9 in `DIGITS`. -/
theorem witness_WidthsSuffice :
    10 ≤ conv10009.mag.toNat ∧ conv10009.state = Phase.conv.code ∧ (emit .digits 9#4 true).state = Phase.digits.code ∧
    0 < (emit .digits 9#4 true).cursor.toNat := by decide

theorem witness_StepKeepsBufferCanonical :
    Memory.wf (conv 19#32 0#4).buf = true ∧ Memory.wf bufMin = true ∧ ∃ t, step (conv 19#32 0#4) = .next t :=
  ⟨rfl, rfl, _, rfl⟩

theorem witness_HoldKeepsTheOffer :
    Emitting (emit .digits 9#4 false) ∧ (pinsNow (emit .digits 9#4 false)).rst = false ∧
    (pinsNow (emit .digits 9#4 false)).outReady = false ∧ outValid (emit .digits 9#4 false) = some true ∧
    ∃ t, step (emit .digits 9#4 false) = .next t :=
  ⟨.inr (.inl rfl), rfl, rfl, rfl, _, rfl⟩

/-- StallsIndefinitely: three stalled ticks in `TRAIL` (`STALL 3`), three idle ticks (`IDLE 3`). -/
theorem witness_StallsIndefinitely :
    (Emitting { emit .trail 0#4 false with script := stallScript 3 7#32 } ∧
      ResetFree 3 { emit .trail 0#4 false with script := stallScript 3 7#32 } ∧
      ∀ k, k < 3 → (pinsAt { emit .trail 0#4 false with script := stallScript 3 7#32 } k).outReady = false) ∧
    (PostReset (scripted (idleScript 3 7#32 true)) ∧ ResetFree 3 (scripted (idleScript 3 7#32 true)) ∧
      ∀ k, k < 3 → (pinsAt (scripted (idleScript 3 7#32 true)) k).inValid = false) := by
  unfold Emitting PostReset ResetFree; decide

/-- OutputIsPrefixOfFrames: three ticks that take 0 and send its lead byte. -/
theorem witness_OutputIsPrefixOfFrames :
    PostReset (scripted (List.replicate 3 (line true 0#32 true))) ∧
    ResetFree 3 (scripted (List.replicate 3 (line true 0#32 true))) ∧
    ∃ t, run 3 (scripted (List.replicate 3 (line true 0#32 true))) = .next t ∧ sentBytes t.sent = [0x20#8] :=
  ⟨rfl, by unfold ResetFree; decide, _, rfl, rfl⟩

/-- BackpressureOnlyDelays: two runs that take 0, one with a stalled tick; they send one byte and none. -/
theorem witness_BackpressureOnlyDelays :
    ResetFree 3 (scripted (List.replicate 3 (line true 0#32 true))) ∧
    ResetFree 4 (scripted (List.replicate 4 (line true 0#32 false))) ∧
    ∃ t t', run 3 (scripted (List.replicate 3 (line true 0#32 true))) = .next t ∧
      run 4 (scripted (List.replicate 4 (line true 0#32 false))) = .next t' ∧
      t.taken = [] ++ [⟨0, 0#32⟩] ∧ t'.taken = [] ++ [⟨0, 0#32⟩] ∧ t.sent = [] ++ [⟨2, 0x20#8⟩] ∧ t'.sent = [] ++ [] :=
  ⟨by unfold ResetFree; decide, by unfold ResetFree; decide, _, _, rfl, rfl, rfl, rfl, rfl, rfl⟩

/-- UnspecifiedRegistersNeverShow: two post-reset states with different registers and the same script. -/
theorem witness_UnspecifiedRegistersNeverShow :
    ∃ s s' t : State, s ≠ s' ∧ PostReset s ∧ PostReset s' ∧ s'.script = s.script ∧ s'.tick = s.tick ∧
      s'.taken = s.taken ∧ s'.sent = s.sent ∧ run 2 s = .next t :=
  ⟨{ State.reset with script := List.replicate 2 (line true 0#32 true) }, scripted (List.replicate 2 (line true 0#32 true)),
    _, by decide, rfl, rfl, rfl, rfl, rfl, rfl, rfl⟩

/-- ConversionTakesDigitCountTicks, PrintTakesTwoNPlusThreeTicks, PrintOperationSequence: the script `PRINT -10`. -/
theorem witness_Print :
    PostReset (scripted (printScript (-10) 7#32)) ∧ (pinsAt (scripted (printScript (-10) 7#32)) 0).inValid = true ∧
    2 = digitCount (magnitude (pinsAt (scripted (printScript (-10) 7#32)) 0).inData) ∧
    2 = digitCount (-10 : Int).natAbs ∧ ResetFree (2 * 2 + 3) (scripted (printScript (-10) 7#32)) ∧
    (∀ k, 2 < k → k < 2 * 2 + 3 → (pinsAt (scripted (printScript (-10) 7#32)) k).outReady = true) ∧
    (scripted (printScript (-10) 7#32)).script = printScript (-10) 7#32 ++ [] := by
  refine ⟨rfl, rfl, rfl, rfl, by unfold ResetFree; decide, ?_, rfl⟩
  intro k h1 h2
  interval_cases k <;> rfl

/-- The values at the ends of the range are in it, and a one-digit value. -/
theorem witness_PrintRange : ∀ v ∈ [(-2147483648 : Int), -1, 0, 9, 2147483647],
    -2147483648 ≤ v ∧ v ≤ 2147483647 := by decide

theorem witness_SameValueTwiceTwoIdenticalFrames :
    PostReset (scripted (printScript 9 7#32 ++ (printScript 9 7#32 ++ []))) ∧ 1 = digitCount (9 : Int).natAbs ∧
    (scripted (printScript 9 7#32 ++ (printScript 9 7#32 ++ []))).script =
      printScript 9 7#32 ++ (printScript 9 7#32 ++ []) := ⟨rfl, rfl, rfl⟩

/-- ReadyConsumerCompletesFrame: twenty-two ready ticks, from a state of `CONV`. -/
theorem witness_ReadyConsumerCompletesFrame :
    Invariant { conv10009 with script := List.replicate 22 (line true 7#32 true) } ∧
    ResetFree 22 { conv10009 with script := List.replicate 22 (line true 7#32 true) } ∧
    12 ≤ readyTicks 10 22 { conv10009 with script := List.replicate 22 (line true 7#32 true) } :=
  ⟨⟨by decide, by decide, by decide, by decide, by decide⟩, by unfold ResetFree; decide, by decide⟩

/-- A producer that always offers `w` and a consumer that is ready or not, for `n` ticks. -/
def offered (n : Nat) (w : Word) (ready : Bool) : State := scripted (List.replicate n (line true w ready))

/-- A contract run of `n` ticks from `offered`: the premises common to the fields of `MeetsContract`. -/
theorem offered_run (n m : Nat) (w : Word) (ready : Bool) (h : n ≤ m) (t : State)
    (hr : run n (offered m w ready) = .next t) : ContractRun n (offered m w ready) t := by
  refine ⟨rfl, fun k hk => ?_, hr⟩
  have hm : k < m := Nat.lt_of_lt_of_le hk h
  simp [pinsAt, offered, scripted, line, hm]

/-- MeetsContract, `functional`, `total`, `progress` (first clause): at the start a value is offered, taken, and eleven
ticks without reset follow. -/
theorem witness_MeetsContract_start :
    ContractRun 0 (offered 11 5#32 true) (offered 11 5#32 true) ∧ inReady (offered 11 5#32 true) = some true ∧
    (pinsNow (offered 11 5#32 true)).rst = false ∧ (pinsNow (offered 11 5#32 true)).inValid = true ∧
    inputTransaction (offered 11 5#32 true) = some 5#32 ∧ ResetFree 11 (offered 11 5#32 true) :=
  ⟨offered_run 0 11 5#32 true (by decide) _ rfl, rfl, rfl, rfl, rfl, by unfold ResetFree; decide⟩

/-- `idempotent`, first and second clause, and `idleBehaviour`, first clause: ten ticks that print 5 twice. -/
theorem witness_MeetsContract_idempotent :
    ∃ t : State, ContractRun 10 (offered 10 5#32 true) t ∧ inReady t = some true ∧
      requests (offered 10 5#32 true) t = [5, 5] ∧
      bytesSent (offered 10 5#32 true) t = frames (requests (offered 10 5#32 true) t) :=
  ⟨_, offered_run 10 10 5#32 true (by decide) _ rfl, rfl, rfl, by decide⟩

/-- `backpressure`, both clauses, `busy`, `idleBehaviour` (second clause), `progress` (last clause): the request 5 with
its lead byte on offer and a consumer that is not ready, against the run that has sent it. -/
theorem witness_MeetsContract_backpressure :
    ∃ t t' u : State, ContractRun 2 (offered 3 5#32 false) t ∧ ContractRun 3 (offered 3 5#32 true) t' ∧
      requests (offered 3 5#32 false) t = requests (offered 3 5#32 true) t' ∧ (pinsNow t).rst = false ∧
      outValid t = some true ∧ (pinsNow t).outReady = false ∧ step t = .next u ∧
      bytesSent (offered 3 5#32 false) t ≠ frames (requests (offered 3 5#32 false) t) ∧ ResetFree 1 t ∧
      ∀ k, k < 1 → (pinsAt t k).outReady = false :=
  ⟨_, _, _, offered_run 2 3 5#32 false (by decide) _ rfl, offered_run 3 3 5#32 true (by decide) _ rfl, rfl, rfl, rfl, rfl,
    rfl, by decide, by unfold ResetFree; decide, by decide⟩

/-- `progress`, second clause: the lead byte on offer and a ready consumer. -/
theorem witness_MeetsContract_send :
    ∃ t : State, ContractRun 2 (offered 3 5#32 true) t ∧ (pinsNow t).rst = false ∧ outValid t = some true ∧
      (pinsNow t).outReady = true := ⟨_, offered_run 2 3 5#32 true (by decide) _ rfl, rfl, rfl, rfl⟩

/-- `progress`, the clause of a ready consumer: a request in flight and twenty-two ready ticks to come. -/
theorem witness_MeetsContract_ready :
    ∃ t : State, ContractRun 1 (offered 23 5#32 true) t ∧ inReady t = some false ∧ ResetFree 22 t ∧
      12 ≤ readyTicks 10 22 t :=
  ⟨_, offered_run 1 23 5#32 true (by decide) _ rfl, rfl, by unfold ResetFree; decide, by decide⟩

/-- DigitsOfANumber, DigitCountOfANumber, FrameLength, FrameShape: operands at the ends of their clauses. -/
theorem witness_Digits :
    (3 ∈ digitsLsf 32767 ∧ 1 ≤ 1) ∧
    ((0 : Nat) ≤ 9 ∧ 1 ≤ 1 ∧ 10 ^ (1 - 1) ≤ 1 ∧ 9 < 10 ^ 1 ∧ 10 ^ (10 - 1) ≤ 2147483648 ∧ 2147483648 < 10 ^ 10) ∧
    ((0 : Int).natAbs ≤ 9 ∧ (-9 : Int).natAbs ≤ 9 ∧ 1000000000 ≤ (-1000000000 : Int).natAbs ∧
      1000000000 ≤ (2147483647 : Int).natAbs) ∧
    (1 ≤ digitCount (-10 : Int).natAbs ∧ digitCount (-10 : Int).natAbs ≠ 1) := by decide

theorem witness_FrameStreamSelfDelimiting :
    frames [10, -7] = frames [10, -7] ∧ frame 10 ++ [0x2D#8] = frame 10 ++ [0x2D#8] ∧
    frames [10, -7] = [0x20#8, 0x31#8, 0x30#8, 0x20#8, 0x2D#8, 0x37#8, 0x20#8] := ⟨rfl, rfl, by decide⟩

end Sys2Proof.Tests
end

/-! ## Which operation a tick performs, and the outputs of each state -/

section
namespace Sys2Proof.Machine

variable {s t u : State} {i : Instr}

/-- R56: distinct states have distinct codes. -/
@[simp] theorem code_inj (p q : Phase) : p.code = q.code ↔ p = q := by
  cases p <;> cases q <;> decide

theorem qZero_eq_true_iff (m : Word) : qZero m = true ↔ m.toNat ≤ 9 := by
  simp only [qZero, Config.radix, beq_iff_eq]
  omega

theorem qZero_eq_false_iff (m : Word) : qZero m = false ↔ 10 ≤ m.toNat := by
  rw [← Bool.not_eq_true, qZero_eq_true_iff]
  omega

theorem curZero_eq_true_iff (c : Index) : curZero c = true ↔ c = 0#4 := by simp [curZero]

/-- R61: what the pre-state and the pins are when the tick performs `i`. -/
def Selected (i : Instr) (s : State) : Prop :=
  match i with
  | .reset => (pinsNow s).rst = true
  | .idleWait => (pinsNow s).rst = false ∧ s.state = Phase.idle.code ∧ (pinsNow s).inValid = false
  | .accept => (pinsNow s).rst = false ∧ s.state = Phase.idle.code ∧ (pinsNow s).inValid = true
  | .convStep => (pinsNow s).rst = false ∧ s.state = Phase.conv.code ∧ 10 ≤ s.mag.toNat
  | .convLast => (pinsNow s).rst = false ∧ s.state = Phase.conv.code ∧ s.mag.toNat ≤ 9
  | .leadHold => (pinsNow s).rst = false ∧ s.state = Phase.lead.code ∧ (pinsNow s).outReady = false
  | .leadSend => (pinsNow s).rst = false ∧ s.state = Phase.lead.code ∧ (pinsNow s).outReady = true
  | .digitHold => (pinsNow s).rst = false ∧ s.state = Phase.digits.code ∧ (pinsNow s).outReady = false
  | .digitSend =>
    (pinsNow s).rst = false ∧ s.state = Phase.digits.code ∧ (pinsNow s).outReady = true ∧ s.cursor ≠ 0#4
  | .digitLast =>
    (pinsNow s).rst = false ∧ s.state = Phase.digits.code ∧ (pinsNow s).outReady = true ∧ s.cursor = 0#4
  | .trailHold => (pinsNow s).rst = false ∧ s.state = Phase.trail.code ∧ (pinsNow s).outReady = false
  | .trailSend => (pinsNow s).rst = false ∧ s.state = Phase.trail.code ∧ (pinsNow s).outReady = true

/-- The decoder agrees with R61. Once the registers enter only through `q_zero` and `cur_zero`, each operation is a
finite check over the selector's six fields. -/
theorem operation_eq_ok_iff : operation s = .ok i ↔ Selected i s := by
  unfold operation selector Selected
  simp only [← qZero_eq_true_iff, ← qZero_eq_false_iff, ← curZero_eq_true_iff, ne_eq]
  generalize (pinsNow s).rst = rst, (pinsNow s).inValid = iv, (pinsNow s).outReady = ready, s.state = st,
    qZero s.mag = qz, curZero s.cursor = cz
  revert rst st iv ready qz cz
  cases i <;> decide

/-- A tick, taken apart: the operation selected, its next state, and the end of the tick. -/
theorem step_next_iff_selected : step s = .next t ↔ ∃ i u, Selected i s ∧ exec i s = .next u ∧ t = nextTick u := by
  simp only [step_next, operation_eq_ok_iff]

theorem step_of_selected (h : Selected i s) (hu : exec i s = .next u) : step s = .next (nextTick u) :=
  step_of_exec (operation_eq_ok_iff.2 h) hu

/-- R108: with `out_ready = 0` an emission state is held; the tick only ends. -/
theorem step_of_hold (he : Emitting s) (hr : (pinsNow s).rst = false) (ho : (pinsNow s).outReady = false) :
    step s = .next (nextTick s) := by
  obtain hs | hs | hs := he
  · exact step_of_selected (i := .leadHold) ⟨hr, hs, ho⟩ (exec_next.2 rfl)
  · exact step_of_selected (i := .digitHold) ⟨hr, hs, ho⟩ (exec_next.2 rfl)
  · exact step_of_selected (i := .trailHold) ⟨hr, hs, ho⟩ (exec_next.2 rfl)

theorem phase?_of_code {p : Phase} (h : s.state = p.code) : phase? s = some p := (phase?_eq p).2 h

/-- R24. -/
theorem inReady_of_code {p : Phase} (h : s.state = p.code) : inReady s = some (decide (p = .idle)) := by
  cases p <;> simp [inReady, phase?_of_code h]

/-- R25. -/
theorem outValid_of_code {p : Phase} (h : s.state = p.code) :
    outValid s = some (decide (p = .lead ∨ p = .digits ∨ p = .trail)) := by
  cases p <;> simp [outValid, phase?_of_code h]

theorem outData_of_idle (h : s.state = Phase.idle.code) : outData s = none := by
  simp [outData, phase?_of_code h]

theorem outData_of_conv (h : s.state = Phase.conv.code) : outData s = none := by
  simp [outData, phase?_of_code h]

theorem outData_of_lead (h : s.state = Phase.lead.code) : outData s = some (leadByte s.sign) := by
  simp [outData, phase?_of_code h]

theorem outData_of_digits (h : s.state = Phase.digits.code) (hc : s.cursor.toNat < Config.bufCap) :
    outData s = some (digitByte (Memory.read s.buf s.cursor.toNat)) := by
  simp [outData, phase?_of_code h, memRead_of_lt hc]

theorem outData_of_trail (h : s.state = Phase.trail.code) : outData s = some spaceByte := by
  simp [outData, phase?_of_code h]

end Sys2Proof.Machine
end

/-! ## The frame of the operations (O24) and the outputs (O26) -/

section
namespace Sys2Proof.Machine

/-- Settles O24, row by row of R18's table: the held states, the transfers that at most send a byte, and the operations
that write a register. -/
theorem operationsChangeOnlyNamedRegisters : Obligations.OperationsChangeOnlyNamedRegisters := by
  intro i s t h
  rw [exec_next] at h
  cases i
  case idleWait | leadHold | digitHold | trailHold => subst h; simp
  case reset | leadSend | digitLast | trailSend => subst h; simp
  case accept => subst h; simp
  case convStep | convLast =>
    obtain ⟨-, rfl⟩ := h
    have hother (d : Slot) (j : Nat) (hj : j ≠ s.count.toNat) :
        Memory.read (Memory.write s.buf s.count.toNat d) j = Memory.read s.buf j := by
      rw [Memory.read_write, if_neg hj]
    simpa using hother _
  case digitSend => obtain ⟨-, rfl⟩ := h; simp

/-- Settles O26: each output is read off the state code, and a tick without `out_ready` leaves an emission state as it
was. -/
theorem outputsByState : Obligations.OutputsByState := by
  intro s
  refine ⟨fun h => ?_, fun h => ?_, fun h => ?_, fun h => ?_, fun h => ?_, fun l k => ⟨rfl, rfl, rfl⟩,
    fun t ht => ⟨fun hop => ?_, fun he hr ho => ?_⟩⟩
  · exact ⟨inReady_of_code h, outValid_of_code h, outData_of_idle h⟩
  · exact ⟨inReady_of_code h, outValid_of_code h, outData_of_conv h⟩
  · exact ⟨inReady_of_code h, outValid_of_code h, outData_of_lead h⟩
  · exact ⟨inReady_of_code h, outValid_of_code h, fun hc => outData_of_digits h (Nat.lt_succ_of_le hc)⟩
  · exact ⟨inReady_of_code h, outValid_of_code h, outData_of_trail h⟩
  · obtain ⟨i, u, hi, hu, rfl⟩ := step_next.1 ht
    obtain rfl : i = .trailSend := by simpa [hop, eq_comm] using hi
    obtain rfl := exec_next.1 hu
    exact inReady_of_code (p := .idle) rfl
  · obtain rfl : nextTick s = t := by simpa [step_of_hold he hr ho] using ht
    rfl

end Sys2Proof.Machine
end

/-! ## The arithmetic of the conversion -/

section
namespace Sys2Proof.Machine

theorem getLsbD_31_iff (w : Word) : w.getLsbD 31 = true ↔ 2 ^ 31 ≤ w.toNat := by
  rw [show w.getLsbD 31 = w.msb from (BitVec.msb_eq_getLsbD_last w).symm, BitVec.msb_eq_decide, decide_eq_true_iff]

/-- R87: read unsigned, `abs32` is the magnitude. -/
theorem abs32_toNat (w : Word) : (abs32 w).toNat = magnitude w := by
  have hw := w.isLt
  unfold abs32 signOf magnitude s32
  split
  · next h =>
    have := (getLsbD_31_iff w).1 h
    simp only [BitVec.toNat_sub, BitVec.toNat_ofNat]
    omega
  · simp

/-- R87: no magnitude exceeds `2^31`. -/
theorem magnitude_le (w : Word) : magnitude w ≤ 2 ^ 31 := by
  have hw := w.isLt
  rw [← abs32_toNat]
  unfold abs32 signOf
  split
  · next h =>
    have := (getLsbD_31_iff w).1 h
    simp only [BitVec.toNat_sub, BitVec.toNat_ofNat]
    omega
  · next h =>
    have := mt (getLsbD_31_iff w).2 h
    omega

theorem quotient_toNat (m : Word) : (quotient m).toNat = m.toNat / Config.radix := by
  have := m.isLt
  simp only [quotient, Config.radix, BitVec.toNat_ofNat]
  omega

theorem lowDigit_toNat (m : Word) : (lowDigit m).toNat = m.toNat % Config.radix := by
  simp only [lowDigit, Config.radix, BitVec.toNat_ofNat]
  omega

/-- R26: the byte of any slot value is `0x30` plus the value, with no wrap. -/
theorem digitByte_toNat (d : Slot) : (digitByte d).toNat = 0x30 + d.toNat := by
  have := d.isLt
  simp only [digitByte, BitVec.toNat_add, BitVec.toNat_ofNat, BitVec.truncate_eq_setWidth, BitVec.toNat_setWidth]
  omega

/-- R35: the index of a slot has a successor that fits in `IDX_W` bits. -/
theorem index_add_one_toNat {c : Index} (h : c.toNat < Config.bufCap) : (c + 1#4).toNat = c.toNat + 1 := by
  simp only [Config.bufCap] at h
  bv_omega

theorem index_sub_one_toNat {c : Index} (h : c ≠ 0#4) : (c - 1#4).toNat = c.toNat - 1 := by
  bv_omega

theorem bufValue_congr {m m' : Memory} {n : Nat} (h : ∀ j, j < n → Memory.read m' j = Memory.read m j) :
    bufValue m' n = bufValue m n := by
  induction n with
  | zero => rfl
  | succ n ih =>
    simp only [bufValue]
    rw [ih fun j hj => h j (Nat.lt_succ_of_lt hj), h n (Nat.lt_succ_self n)]

/-- A digit written above the first `n` adds its place value to theirs. -/
theorem bufValue_write (m : Memory) (n : Nat) (d : Slot) :
    bufValue (Memory.write m n d) (n + 1) = bufValue m n + d.toNat * Config.radix ^ n := by
  have hbelow : bufValue (Memory.write m n d) n = bufValue m n :=
    bufValue_congr fun j hj => by rw [Memory.read_write, if_neg hj.ne]
  simp only [bufValue, hbelow, Memory.read_write, if_true]

/-- R31 (c): moving the low digit of `mag` into slot `n` keeps the sum, since `mag` is `10 * (mag / 10) + mag % 10`. -/
theorem conversion_sum (b : Memory) (n : Nat) (mag : Word) :
    mag.toNat / Config.radix * Config.radix ^ (n + 1) + bufValue (Memory.write b n (lowDigit mag)) (n + 1) =
      mag.toNat * Config.radix ^ n + bufValue b n := by
  rw [bufValue_write, lowDigit_toNat]
  calc mag.toNat / Config.radix * Config.radix ^ (n + 1) +
        (bufValue b n + mag.toNat % Config.radix * Config.radix ^ n)
      = (Config.radix * (mag.toNat / Config.radix) + mag.toNat % Config.radix) * Config.radix ^ n + bufValue b n := by
        ring
    _ = mag.toNat * Config.radix ^ n + bufValue b n := by rw [Nat.div_add_mod]

/-- R31 (d): the slots up to `n` hold digits after the low digit of `mag` is written to slot `n`. -/
theorem digits_write_lowDigit {b : Memory} {n : Nat} (mag : Word) (h : ∀ j, j < n → (Memory.read b j).toNat ≤ 9) :
    ∀ j, j < n + 1 → (Memory.read (Memory.write b n (lowDigit mag)) j).toNat ≤ 9 := by
  intro j hj
  rw [Memory.read_write]
  split
  · rw [lowDigit_toNat]
    exact Nat.le_of_lt_succ (Nat.mod_lt _ (by decide))
  · exact h j (by omega)

end Sys2Proof.Machine
end

/-! ## The invariant of R31 and R32 (O32, O34, O38) -/

section
namespace Sys2Proof.Machine

variable {s t u : State} {i : Instr}

theorem invariant_of_idle (h : s.state = Phase.idle.code) : Invariant s := by
  simp [Invariant, phase?_of_code h]

theorem invariant_iff_of_conv (h : s.state = Phase.conv.code) : Invariant s ↔ ConvInvariant s := by
  simp [Invariant, phase?_of_code h]

theorem invariant_iff_of_lead (h : s.state = Phase.lead.code) :
    Invariant s ↔ EmitInvariant s ∧ s.cursor.toNat = s.count.toNat - 1 := by
  simp [Invariant, phase?_of_code h]

theorem invariant_iff_of_digits (h : s.state = Phase.digits.code) :
    Invariant s ↔ EmitInvariant s ∧ s.cursor.toNat ≤ s.count.toNat - 1 := by
  simp [Invariant, phase?_of_code h]

theorem invariant_iff_of_trail (h : s.state = Phase.trail.code) :
    Invariant s ↔ EmitInvariant s ∧ s.cursor.toNat = 0 := by
  simp [Invariant, phase?_of_code h]

/-- R32 (a) to (e) do not mention `state`, `cursor`, the pins or the observation. -/
theorem EmitInvariant.of_eq (h : EmitInvariant s) (hval : t.val = s.val := by rfl)
    (hsign : t.sign = s.sign := by rfl) (hmag : t.mag = s.mag := by rfl) (hcount : t.count = s.count := by rfl)
    (hbuf : t.buf = s.buf := by rfl) : EmitInvariant t where
  sign := by rw [hsign, hval]; exact h.sign
  filled := by rw [hcount]; exact h.filled
  sum := by rw [hmag, hbuf, hcount, hval]; exact h.sum
  digits := by rw [hbuf, hcount]; exact h.digits
  noLeadingZero := by rw [hbuf, hcount, hval]; exact h.noLeadingZero

/-- The end of a tick changes no register the invariant speaks of. -/
theorem invariant_nextTick (h : Invariant s) : Invariant (nextTick s) := by
  have hphase : phase? (nextTick s) = phase? s := rfl
  unfold Invariant at h ⊢
  rw [hphase]
  split at h
  · trivial
  · exact ⟨h.sign, h.room, h.sum, h.digits, h.more⟩
  · exact ⟨h.1.of_eq, h.2⟩
  · exact ⟨h.1.of_eq, h.2⟩
  · exact ⟨h.1.of_eq, h.2⟩
  · exact h

/-- R92: with another digit to come, the next slot exists, because the magnitude is below `10^10`. -/
theorem ConvInvariant.count_le_of_ten_le (h : ConvInvariant s) (hm : 10 ≤ s.mag.toNat) : s.count.toNat ≤ 8 := by
  by_contra hc
  have hc9 : s.count.toNat = 9 := by have := h.room; omega
  have hsum := h.sum
  have := magnitude_le s.val
  simp only [hc9, Config.radix] at hsum
  omega

/-- R77 sets up R31: nothing is converted yet, and `mag` is the whole magnitude. -/
theorem convInvariant_accept (s : State) (w : Word) :
    ConvInvariant (goto .conv { recv s with val := w, sign := signOf w, mag := abs32 w, count := 0#4 }) where
  sign := rfl
  room := Nat.zero_le 9
  sum := by simp [bufValue, abs32_toNat]
  digits := fun _ hj => absurd hj (Nat.not_lt_zero _)
  more := fun hc => absurd hc (Nat.lt_irrefl 0)

/-- R88 keeps R31. -/
theorem ConvInvariant.convStep (h : ConvInvariant s) (hm : 10 ≤ s.mag.toNat) :
    ConvInvariant { s with buf := Memory.write s.buf s.count.toNat (lowDigit s.mag), count := s.count + 1#4,
                           mag := quotient s.mag } := by
  have hroom := h.count_le_of_ten_le hm
  have hcount : (s.count + 1#4).toNat = s.count.toNat + 1 := index_add_one_toNat (by simp only [Config.bufCap]; omega)
  refine ⟨h.sign, ?_, ?_, ?_, fun _ => ?_⟩ <;> simp only [hcount, quotient_toNat]
  · omega
  · rw [conversion_sum, h.sum]
  · exact digits_write_lowDigit s.mag h.digits
  · exact Nat.div_pos hm (by decide)

/-- R31 (e) and (c) before the last digit: one digit is all there is exactly when the magnitude is at most 9. -/
theorem ConvInvariant.count_eq_zero_iff (h : ConvInvariant s) (hm : s.mag.toNat ≤ 9) :
    s.count.toNat = 0 ↔ magnitude s.val ≤ 9 := by
  rw [← h.sum]
  constructor
  · intro hc
    simpa [hc, bufValue] using hm
  · intro hle
    by_contra hc
    have hmag := h.more (Nat.pos_of_ne_zero hc)
    have hten : Config.radix ^ 1 ≤ Config.radix ^ s.count.toNat :=
      Nat.pow_le_pow_right (by decide) (Nat.pos_of_ne_zero hc)
    have := Nat.mul_le_mul hmag hten
    simp only [Config.radix] at *
    omega

/-- R89 turns R31 into R32. -/
theorem ConvInvariant.convLast (h : ConvInvariant s) (hm : s.mag.toNat ≤ 9) :
    EmitInvariant { s with buf := Memory.write s.buf s.count.toNat (lowDigit s.mag), count := s.count + 1#4,
                           mag := 0#32, cursor := s.count, state := Phase.lead.code } := by
  have hroom := h.room
  have hcount : (s.count + 1#4).toNat = s.count.toNat + 1 := index_add_one_toNat (Nat.lt_succ_of_le hroom)
  have hquot : s.mag.toNat / Config.radix = 0 := Nat.div_eq_of_lt (Nat.lt_succ_of_le hm)
  refine ⟨h.sign, ?_, ⟨rfl, ?_⟩, ?_, ?_, ?_⟩ <;> simp only [hcount, Nat.add_sub_cancel]
  · omega
  · rw [← h.sum, ← conversion_sum, hquot, Nat.zero_mul, Nat.zero_add]
  · exact digits_write_lowDigit s.mag h.digits
  · rw [Memory.read_write, if_pos rfl, or_iff_not_imp_left]
    intro hc hzero
    have hmag := h.more (by omega)
    have hlow := lowDigit_toNat s.mag
    rw [hzero, Nat.mod_eq_of_lt (Nat.lt_succ_of_le hm)] at hlow
    exact hmag.ne hlow
  · rw [← h.count_eq_zero_iff hm]
    omega

/-- R31, R32: the operation a tick selects keeps the invariant. -/
theorem exec_keeps_invariant (h : Invariant s) (hi : Selected i s) (hu : exec i s = .next u) : Invariant u := by
  rw [exec_next] at hu
  cases i
  case reset => subst hu; exact invariant_of_idle rfl
  case trailSend => subst hu; exact invariant_of_idle rfl
  case idleWait | leadHold | digitHold | trailHold => exact hu ▸ h
  case accept =>
    subst hu
    exact (invariant_iff_of_conv rfl).2 (convInvariant_accept s _)
  case convStep =>
    obtain ⟨-, hst, hm⟩ := hi
    obtain ⟨-, rfl⟩ := hu
    have hconv := ((invariant_iff_of_conv hst).1 h).convStep hm
    exact (invariant_iff_of_conv (by exact hst)).2 hconv
  case convLast =>
    obtain ⟨-, hst, hm⟩ := hi
    obtain ⟨hlt, rfl⟩ := hu
    refine (invariant_iff_of_lead rfl).2 ⟨((invariant_iff_of_conv hst).1 h).convLast hm, ?_⟩
    simp only [index_add_one_toNat hlt, Nat.add_sub_cancel]
  case leadSend =>
    obtain ⟨-, hst, -⟩ := hi
    obtain ⟨he, hc⟩ := (invariant_iff_of_lead hst).1 h
    subst hu
    exact (invariant_iff_of_digits rfl).2 ⟨he.of_eq, hc.le⟩
  case digitSend =>
    obtain ⟨-, hst, -, hne⟩ := hi
    obtain ⟨he, hc⟩ := (invariant_iff_of_digits hst).1 h
    obtain ⟨-, rfl⟩ := hu
    refine (invariant_iff_of_digits (by exact hst)).2 ⟨he.of_eq, ?_⟩
    simp only [index_sub_one_toNat hne, send_count]
    omega
  case digitLast =>
    obtain ⟨-, hst, -, hzero⟩ := hi
    obtain ⟨he, -⟩ := (invariant_iff_of_digits hst).1 h
    subst hu
    exact (invariant_iff_of_trail rfl).2 ⟨he.of_eq, by simp [hzero]⟩

/-- Settles O34: the selected operation keeps the invariant, and the end of the tick does. -/
theorem stepKeepsInvariant : Obligations.StepKeepsInvariant := by
  intro s t h hstep
  obtain ⟨i, u, hi, hu, rfl⟩ := step_next_iff_selected.1 hstep
  exact invariant_nextTick (exec_keeps_invariant h hi hu)

/-- Settles O32, by the outputs of `IDLE`. -/
theorem resetStateIsIdle : Obligations.ResetStateIsIdle :=
  ⟨rfl, inReady_of_code (p := .idle) rfl, outValid_of_code (p := .idle) rfl, outData_of_idle rfl,
    invariant_of_idle rfl, Memory.wf_reset⟩

/-- Settles O38: R31 (b) and (c) bound `count` in `CONV`, R32 bounds `cursor` by `count` in `DIGITS`. -/
theorem widthsSuffice : Obligations.WidthsSuffice := by
  intro s h
  refine ⟨fun hst => ?_, fun hst => ?_, ?_⟩
  · have hconv := (invariant_iff_of_conv hst).1 h
    have hlt : s.count.toNat < Config.bufCap := Nat.lt_succ_of_le hconv.room
    exact ⟨index_add_one_toNat hlt, hlt, hconv.count_le_of_ten_le⟩
  · obtain ⟨hemit, hcur⟩ := (invariant_iff_of_digits hst).1 h
    obtain ⟨hpos, hle⟩ := hemit.filled
    refine ⟨by omega, hle, fun hc => index_sub_one_toNat ?_, digitByte_toNat _⟩
    intro hzero
    simp [hzero] at hc
  · rw [quotient_toNat]
    exact Nat.div_le_self _ _

end Sys2Proof.Machine
end

/-! ## The unspecified registers never show (O47) -/

section
namespace Sys2Proof.Machine

variable {s s' t u : State} {i : Instr}

/-- The two states show the same, and agree on every register the current request has written (R33): on `sign`, `count`
and the slots below `count` once a request is accepted, on `mag` during the conversion, on `cursor` during the emission,
where it stays below `count`. In `IDLE` no register need agree. -/
structure Alike (s s' : State) : Prop where
  state : s'.state = s.state
  script : s'.script = s.script
  tick : s'.tick = s.tick
  taken : s'.taken = s.taken
  sent : s'.sent = s.sent
  sign : s.state ≠ Phase.idle.code → s'.sign = s.sign
  count : s.state ≠ Phase.idle.code → s'.count = s.count
  slots : s.state ≠ Phase.idle.code → ∀ j, j < s.count.toNat → Memory.read s'.buf j = Memory.read s.buf j
  mag : s.state = Phase.conv.code → s'.mag = s.mag
  cursor : Emitting s → s'.cursor = s.cursor ∧ s.cursor.toNat < s.count.toNat

theorem not_emitting_of_idle (h : s.state = Phase.idle.code) : ¬ Emitting s := by simp [Emitting, h]

theorem not_emitting_of_conv (h : s.state = Phase.conv.code) : ¬ Emitting s := by simp [Emitting, h]

theorem Emitting.ne_idle (h : Emitting s) : s.state ≠ Phase.idle.code := fun hs => not_emitting_of_idle hs h

/-- In `IDLE` the observation is all that need agree. -/
theorem alike_of_idle (hs : s.state = Phase.idle.code) (hs' : s'.state = Phase.idle.code)
    (hscript : s'.script = s.script) (htick : s'.tick = s.tick) (htaken : s'.taken = s.taken)
    (hsent : s'.sent = s.sent) : Alike s s' where
  state := hs'.trans hs.symm
  script := hscript
  tick := htick
  taken := htaken
  sent := hsent
  sign := fun hne => absurd hs hne
  count := fun hne => absurd hs hne
  slots := fun hne => absurd hs hne
  mag := by simp [hs]
  cursor := fun he => absurd he (not_emitting_of_idle hs)

namespace Alike

theorem pinsNow (h : Alike s s') : pinsNow s' = pinsNow s := by
  simp only [Machine.pinsNow, pinsAt, h.script, h.tick]

/-- Where the states agree is all the selector looks at. -/
theorem selected (h : Alike s s') (hi : Selected i s) : Selected i s' := by
  cases i
  case reset | idleWait | accept | leadHold | leadSend | digitHold | trailHold | trailSend =>
    simpa only [Selected, h.pinsNow, h.state] using hi
  case convStep | convLast => simpa only [Selected, h.pinsNow, h.state, h.mag hi.2.1] using hi
  case digitSend | digitLast =>
    simpa only [Selected, h.pinsNow, h.state, (h.cursor (.inr (.inl hi.2.1))).1] using hi

/-- The slots up to `count` agree after the same digit is written to slot `count`. -/
theorem slots_write (h : Alike s s') (hs : s.state ≠ Phase.idle.code) (hlt : s.count.toNat < Config.bufCap) (d : Slot) :
    ∀ j, j < (s.count + 1#4).toNat →
      Memory.read (Memory.write s'.buf s.count.toNat d) j = Memory.read (Memory.write s.buf s.count.toNat d) j := by
  intro j hj
  rw [index_add_one_toNat hlt] at hj
  rw [Memory.read_write, Memory.read_write]
  split
  · rfl
  · exact h.slots hs j (by omega)

theorem goto_idle (h : Alike s s') : Alike (goto .idle s) (goto .idle s') :=
  alike_of_idle rfl rfl h.script h.tick h.taken h.sent

/-- R102, R105, R107: a byte sent from an emission state keeps states alike, whichever state comes next but `CONV`, whose
`mag` is not known to agree. -/
theorem goto_send (h : Alike s s') (he : Emitting s) (b : Byte) {p : Phase} (hp : p ≠ .conv) :
    Alike (goto p (send b s)) (goto p (send b s')) where
  state := rfl
  script := h.script
  tick := h.tick
  taken := h.taken
  sent := by simp only [goto_sent, send_sent, h.sent, h.tick]
  sign := fun _ => h.sign he.ne_idle
  count := fun _ => h.count he.ne_idle
  slots := fun _ => h.slots he.ne_idle
  mag := fun hc => absurd ((code_inj p .conv).1 hc) hp
  cursor := fun _ => h.cursor he

/-- R77: ACCEPT writes every register `CONV` agrees on, from `in_data`. -/
theorem accept (h : Alike s s') (w : Word) :
    Alike (goto .conv { recv s with val := w, sign := signOf w, mag := abs32 w, count := 0#4 })
      (goto .conv { recv s' with val := w, sign := signOf w, mag := abs32 w, count := 0#4 }) where
  state := rfl
  script := h.script
  tick := h.tick
  taken := by simp only [goto_taken, recv_taken, h.taken, h.tick, h.pinsNow]
  sent := h.sent
  sign := fun _ => rfl
  count := fun _ => rfl
  slots := fun _ j hj => absurd hj (Nat.not_lt_zero j)
  mag := fun _ => rfl
  cursor := fun he => absurd he (not_emitting_of_conv rfl)

/-- Two states that are alike take the same operation to states that are alike. The registers an operation reads are
those the request has written: its digit slots lie below `count`. -/
theorem exec (h : Alike s s') (hi : Selected i s) (hu : exec i s = .next u) :
    ∃ u', Machine.exec i s' = .next u' ∧ Alike u u' := by
  simp only [exec_next] at hu ⊢
  cases i
  case reset => subst hu; exact ⟨_, rfl, h.goto_idle⟩
  case idleWait | leadHold | digitHold | trailHold => subst hu; exact ⟨_, rfl, h⟩
  case accept =>
    subst hu
    refine ⟨_, rfl, ?_⟩
    rw [h.pinsNow]
    exact h.accept _
  case convStep =>
    obtain ⟨-, hst, -⟩ := hi
    obtain ⟨hlt, rfl⟩ := hu
    have hs : s.state ≠ Phase.idle.code := by simp [hst]
    refine ⟨_, ⟨by rwa [h.count hs], rfl⟩, ?_⟩
    rw [h.count hs, h.mag hst]
    exact
      { state := h.state, script := h.script, tick := h.tick, taken := h.taken, sent := h.sent
        sign := fun _ => h.sign hs, count := fun _ => rfl, slots := fun _ => h.slots_write hs hlt _
        mag := fun _ => rfl, cursor := fun he => absurd he (not_emitting_of_conv hst) }
  case convLast =>
    obtain ⟨-, hst, -⟩ := hi
    obtain ⟨hlt, rfl⟩ := hu
    have hs : s.state ≠ Phase.idle.code := by simp [hst]
    have hcursor : s.count.toNat < (s.count + 1#4).toNat := by rw [index_add_one_toNat hlt]; omega
    refine ⟨_, ⟨by rwa [h.count hs], rfl⟩, ?_⟩
    rw [h.count hs, h.mag hst]
    exact
      { state := rfl, script := h.script, tick := h.tick, taken := h.taken, sent := h.sent
        sign := fun _ => h.sign hs, count := fun _ => rfl, slots := fun _ => h.slots_write hs hlt _
        mag := fun _ => rfl, cursor := fun _ => ⟨rfl, hcursor⟩ }
  case leadSend =>
    have he : Emitting s := .inl hi.2.1
    subst hu
    refine ⟨_, rfl, ?_⟩
    rw [h.sign he.ne_idle]
    exact h.goto_send he _ (by decide)
  case digitSend =>
    obtain ⟨-, hst, -, hne⟩ := hi
    obtain ⟨hlt, rfl⟩ := hu
    have he : Emitting s := .inr (.inl hst)
    obtain ⟨hcur, hbelow⟩ := h.cursor he
    refine ⟨_, ⟨by rwa [hcur], rfl⟩, ?_⟩
    rw [hcur, h.slots he.ne_idle _ hbelow]
    have hsent := h.goto_send he (digitByte (Memory.read s.buf s.cursor.toNat)) (p := .digits) (by decide)
    exact
      { state := h.state, script := h.script, tick := h.tick, taken := h.taken, sent := hsent.sent
        sign := fun _ => h.sign he.ne_idle, count := fun _ => h.count he.ne_idle
        slots := fun _ => h.slots he.ne_idle, mag := fun hc => absurd (hst.symm.trans hc) (by decide)
        cursor := fun _ => ⟨rfl, by simp only [index_sub_one_toNat hne, send_count]; omega⟩ }
  case digitLast =>
    obtain ⟨-, hst, -, -⟩ := hi
    have he : Emitting s := .inr (.inl hst)
    have hbelow : 0 < s.count.toNat := (Nat.zero_le _).trans_lt (h.cursor he).2
    subst hu
    refine ⟨_, rfl, ?_⟩
    rw [h.slots he.ne_idle 0 hbelow]
    exact h.goto_send he _ (by decide)
  case trailSend =>
    subst hu
    exact ⟨_, rfl, h.goto_send (.inr (.inr hi.2.1)) _ (by decide)⟩

theorem nextTick (h : Alike s s') : Alike (nextTick s) (nextTick s') where
  state := h.state
  script := congrArg List.tail h.script
  tick := congrArg (· + 1) h.tick
  taken := h.taken
  sent := h.sent
  sign := h.sign
  count := h.count
  slots := h.slots
  mag := h.mag
  cursor := h.cursor

theorem step (h : Alike s s') (ht : step s = .next t) : ∃ t', Machine.step s' = .next t' ∧ Alike t t' := by
  obtain ⟨i, u, hi, hu, rfl⟩ := step_next_iff_selected.1 ht
  obtain ⟨u', hu', hal⟩ := h.exec hi hu
  exact ⟨_, step_of_selected (h.selected hi) hu', hal.nextTick⟩

theorem run {n : Nat} (h : Alike s s') (ht : run n s = .next t) : ∃ t', Machine.run n s' = .next t' ∧ Alike t t' := by
  induction n generalizing s s' with
  | zero =>
    obtain rfl : s = t := by simpa using ht
    exact ⟨s', rfl, h⟩
  | succ n ih =>
    obtain ⟨u, hu, ht⟩ := run_succ.1 ht
    obtain ⟨u', hu', hal⟩ := h.step hu
    obtain ⟨t', ht', hal'⟩ := ih hal ht
    exact ⟨t', run_succ.2 ⟨u', hu', ht'⟩, hal'⟩

theorem phase?_eq (h : Alike s s') : phase? s' = phase? s := congrArg Phase.ofCode? h.state

theorem inReady_eq (h : Alike s s') : inReady s' = inReady s := by simp only [inReady, h.phase?_eq]

theorem outValid_eq (h : Alike s s') : outValid s' = outValid s := by simp only [outValid, h.phase?_eq]

/-- The byte on offer is made of `sign`, or of the slot at `cursor`, which lies below `count`. -/
theorem outData_eq (h : Alike s s') : outData s' = outData s := by
  unfold outData
  rw [h.phase?_eq]
  split
  · rfl
  · rfl
  · next hp =>
    have he : Emitting s := .inl ((Machine.phase?_eq _).1 hp)
    rw [h.sign he.ne_idle]
  · next hp =>
    have he : Emitting s := .inr (.inl ((Machine.phase?_eq _).1 hp))
    obtain ⟨hcur, hbelow⟩ := h.cursor he
    simp only [memRead, hcur, h.slots he.ne_idle _ hbelow]
  · rfl
  · rfl

end Alike

/-- Settles O47: post-reset states are alike, a run keeps them so, and what is alike shows the same. -/
theorem unspecifiedRegistersNeverShow : Obligations.UnspecifiedRegistersNeverShow := by
  intro s s' t n hs hs' hscript htick htaken hsent hrun
  obtain ⟨t', hrun', h⟩ := (alike_of_idle hs hs' hscript htick htaken hsent).run hrun
  exact ⟨t', hrun', h.taken, h.sent, h.inReady_eq, h.outValid_eq, h.outData_eq⟩

end Sys2Proof.Machine
end

/-! ## The digit buffer and the transactions of a tick (O23, O27, O28, O29, O36) -/

section
namespace Sys2Proof.Machine

variable {s t u : State} {i j : Instr}

/-- Settles O23: below `BUF_CAP` both accesses are those of the list, which reads back what was written; from there on
both answer nothing. -/
theorem bufferReadAfterWrite : Obligations.BufferReadAfterWrite := by
  intro m i d
  constructor
  · intro hi
    have hlt : i.toNat < Config.bufCap := Nat.lt_succ_of_le hi
    refine ⟨_, memWrite_of_lt d hlt, ?_, fun j hj => ?_, memRead_of_lt hlt⟩
    · rw [memRead_of_lt hlt, Memory.read_write, if_pos rfl]
    · have hne : j.toNat ≠ i.toNat := mt BitVec.eq_of_toNat_eq hj
      simp only [memRead, Memory.read_write, if_neg hne]
  · intro hi
    have hge : ¬ i.toNat < Config.bufCap := Nat.not_lt_of_le hi
    exact ⟨if_neg hge, if_neg hge⟩

/-- An operation writes at most one slot, and only one of the ten; so it keeps the canonical form. -/
theorem exec_keeps_wf (h : Memory.wf s.buf = true) (hu : exec i s = .next u) : Memory.wf u.buf = true := by
  rw [exec_next] at hu
  cases i
  case convStep | convLast =>
    obtain ⟨hlt, rfl⟩ := hu
    exact Memory.wf_write _ h hlt
  case digitSend => obtain ⟨-, rfl⟩ := hu; exact h
  all_goals subst hu; exact h

/-- Settles O36: the selected operation keeps the canonical form, and the end of the tick leaves the buffer alone. -/
theorem stepKeepsBufferCanonical : Obligations.StepKeepsBufferCanonical := by
  intro s t hwf ht
  obtain ⟨i, u, -, hu, rfl⟩ := step_next.1 ht
  rw [nextTick_buf]
  exact exec_keeps_wf hwf hu

/-- R60: a tick performs one operation. -/
theorem Selected.unique (hi : Selected i s) (hj : Selected j s) : i = j := by
  have h : operation s = .ok j := operation_eq_ok_iff.2 hj
  rw [operation_eq_ok_iff.2 hi] at h
  exact Except.ok.inj h

/-- R24, read backwards: only `IDLE` is ready. -/
theorem inReady_eq_true_iff : inReady s = some true ↔ s.state = Phase.idle.code := by
  rw [← phase?_eq]
  unfold inReady
  split <;> simp [*]

/-- R25, read backwards. -/
theorem outValid_eq_true_iff : outValid s = some true ↔ Emitting s := by
  simp only [Emitting, ← phase?_eq]
  unfold outValid
  split <;> simp [*]

theorem inputTransaction_eq_some_iff {w : Word} : inputTransaction s = some w ↔
    (pinsNow s).rst = false ∧ (pinsNow s).inValid = true ∧ inReady s = some true ∧ w = (pinsNow s).inData := by
  simp [inputTransaction, and_assoc, eq_comm (a := w)]

/-- ACCEPT is selected exactly where R45 sees an input transaction. -/
theorem inputTransaction_eq_some_iff_selected {w : Word} :
    inputTransaction s = some w ↔ Selected .accept s ∧ w = (pinsNow s).inData := by
  rw [inputTransaction_eq_some_iff, inReady_eq_true_iff]
  constructor
  · rintro ⟨hr, hv, hs, hw⟩; exact ⟨⟨hr, hs, hv⟩, hw⟩
  · rintro ⟨⟨hr, hs, hv⟩, hw⟩; exact ⟨hr, hv, hs, hw⟩

/-- Settles O27, by R45 and the selection of ACCEPT. -/
theorem inputTransactionIffAccept : Obligations.InputTransactionIffAccept := by
  intro s w
  rw [operation_eq_ok_iff]
  exact ⟨inputTransaction_eq_some_iff, inputTransaction_eq_some_iff_selected⟩

/-- The operations that R46 says carry a byte. -/
def sendOperations : List Instr := [.leadSend, .digitSend, .digitLast, .trailSend]

/-- R46: a send operation is selected exactly when a byte is on offer and taken. -/
theorem exists_send_selected_iff : (∃ i ∈ sendOperations, Selected i s) ↔
    (pinsNow s).rst = false ∧ outValid s = some true ∧ (pinsNow s).outReady = true := by
  rw [outValid_eq_true_iff]
  simp only [sendOperations, List.mem_cons, List.not_mem_nil, or_false, exists_eq_or_imp, exists_eq_left, Selected,
    Emitting]
  constructor
  · rintro (⟨hr, hs, ho⟩ | ⟨hr, hs, ho, -⟩ | ⟨hr, hs, ho, -⟩ | ⟨hr, hs, ho⟩)
    · exact ⟨hr, .inl hs, ho⟩
    · exact ⟨hr, .inr (.inl hs), ho⟩
    · exact ⟨hr, .inr (.inl hs), ho⟩
    · exact ⟨hr, .inr (.inr hs), ho⟩
  · rintro ⟨hr, hs | hs | hs, ho⟩
    · exact .inl ⟨hr, hs, ho⟩
    · by_cases hc : s.cursor = 0#4
      · exact .inr (.inr (.inl ⟨hr, hs, ho, hc⟩))
      · exact .inr (.inl ⟨hr, hs, ho, hc⟩)
    · exact .inr (.inr (.inr ⟨hr, hs, ho⟩))

theorem Selected.mem_sendOperations_iff (hi : Selected i s) : i ∈ sendOperations ↔
    (pinsNow s).rst = false ∧ outValid s = some true ∧ (pinsNow s).outReady = true := by
  rw [← exists_send_selected_iff]
  constructor
  · intro h; exact ⟨i, h, hi⟩
  · rintro ⟨j, hj, hsel⟩; rwa [hi.unique hsel]

/-- R45, by the operation. -/
theorem Selected.inputTransaction_eq (hi : Selected i s) :
    inputTransaction s = if i = .accept then some (pinsNow s).inData else none := by
  split
  · next h => subst h; exact inputTransaction_eq_some_iff_selected.2 ⟨hi, rfl⟩
  · next h =>
    refine Option.eq_none_iff_forall_ne_some.2 fun w hw => h ?_
    exact hi.unique (inputTransaction_eq_some_iff_selected.1 hw).1

/-- R46, by the operation. -/
theorem Selected.outputTransaction_eq (hi : Selected i s) :
    outputTransaction s = if i ∈ sendOperations then outData s else none := by
  simp only [outputTransaction, hi.mem_sendOperations_iff]

/-- R26: an emission state has a byte on offer, in `DIGITS` where `cursor` addresses a slot. -/
theorem Emitting.outData_isSome (he : Emitting s) (hc : s.state = Phase.digits.code → s.cursor.toNat < Config.bufCap) :
    (outData s).isSome = true := by
  obtain hs | hs | hs := he
  · simp [outData_of_lead hs]
  · simp [outData_of_digits hs (hc hs)]
  · simp [outData_of_trail hs]

theorem outputTransaction_isSome_iff (hc : s.state = Phase.digits.code → s.cursor.toNat < Config.bufCap) :
    (outputTransaction s).isSome = true ↔
      (pinsNow s).rst = false ∧ outValid s = some true ∧ (pinsNow s).outReady = true := by
  unfold outputTransaction
  split
  · next h =>
    have ⟨_, hv, _⟩ := h
    exact iff_of_true ((outValid_eq_true_iff.1 hv).outData_isSome hc) h
  · next h => simpa using h

/-- Settles O28: what R46 asks of the pins and the state is what selects one of the four send operations, and where it
holds the transaction is `out_data`. -/
theorem outputTransactionIffSend : Obligations.OutputTransactionIffSend := by
  intro s hc
  have hsome := outputTransaction_isSome_iff fun hs => Nat.lt_succ_of_le (hc hs)
  refine ⟨hsome, ?_, fun b hb => ?_⟩
  · simp only [operation_eq_ok_iff]
    exact hsome.trans exists_send_selected_iff.symm
  · unfold outputTransaction at hb
    split at hb
    · exact hb
    · cases hb

/-- R47: the selected operation adds its transaction to the record, and nothing else. -/
theorem exec_records (hi : Selected i s) (hu : exec i s = .next u) :
    u.taken = s.taken ++ (inputTransaction s).toList.map (fun w => ⟨s.tick, w⟩) ∧
    u.sent = s.sent ++ (outputTransaction s).toList.map (fun b => ⟨s.tick, b⟩) := by
  rw [hi.inputTransaction_eq, hi.outputTransaction_eq]
  rw [exec_next] at hu
  cases i
  case reset | idleWait | leadHold | digitHold | trailHold => subst hu; simp [sendOperations]
  case accept => subst hu; simp [sendOperations]
  case convStep | convLast => obtain ⟨-, rfl⟩ := hu; simp [sendOperations]
  case leadSend =>
    obtain ⟨-, hs, -⟩ := hi
    subst hu
    simp [sendOperations, outData_of_lead hs]
  case digitSend =>
    obtain ⟨-, hs, -, -⟩ := hi
    obtain ⟨hlt, rfl⟩ := hu
    simp [sendOperations, outData_of_digits hs hlt]
  case digitLast =>
    obtain ⟨-, hs, -, hc⟩ := hi
    subst hu
    have hlt : s.cursor.toNat < Config.bufCap := by rw [hc]; decide
    simp [sendOperations, outData_of_digits hs hlt, hc]
  case trailSend =>
    obtain ⟨-, hs, -⟩ := hi
    subst hu
    simp [sendOperations, outData_of_trail hs]

/-- Settles O29: the operation records its transactions, and the end of the tick leaves the record alone. -/
theorem tickRecordsItsTransactions : Obligations.TickRecordsItsTransactions := by
  intro s t ht
  obtain ⟨i, u, hi, hu, rfl⟩ := step_next_iff_selected.1 ht
  rw [nextTick_taken, nextTick_sent]
  exact exec_records hi hu

end Sys2Proof.Machine
end

/-! ## The decoder (O1, O2, O4, O5) -/

section
namespace Sys2Proof

variable {w : Selector} {i : Instr} {rest : Selector}

theorem Row.selects_iff (r : Row) (w : Selector) : r.selects w = true ↔ w &&& r.mask = r.pattern := beq_iff_eq

/-- R62: two rows that fix some bits to the same values are the same row, for any two of the table differ in a bit that
both decode. -/
theorem operationMap_disjoint : ∀ r ∈ operationMap, ∀ r' ∈ operationMap,
    r.pattern &&& r'.mask = r'.pattern &&& r.mask → r = r' := by decide

/-- R60: at most one row matches a word. -/
theorem Row.selects_unique {r r' : Row} (hr : r ∈ operationMap) (hr' : r' ∈ operationMap) (h : r.selects w = true)
    (h' : r'.selects w = true) : r = r' := by
  rw [Row.selects_iff] at h h'
  refine operationMap_disjoint r hr r' hr' ?_
  rw [← h, ← h', BitVec.and_assoc, BitVec.and_assoc, BitVec.and_comm r.mask]

/-- R60: decoding is by the row that matches. -/
theorem decode_eq_ok_iff_row :
    decode w = .ok i ↔ ∃ r ∈ operationMap, w &&& r.mask = r.pattern ∧ r.instr = i := by
  simp only [← Row.selects_iff]
  unfold decode
  split
  · next r hfind =>
    have hmem := List.mem_of_find?_eq_some hfind
    have hsel : r.selects w = true := List.find?_some (p := fun r : Row => r.selects w) hfind
    constructor
    · intro h
      exact ⟨r, hmem, hsel, Except.ok.inj h⟩
    · rintro ⟨r', hmem', hsel', rfl⟩
      rw [Row.selects_unique hmem hmem' hsel hsel']
  · next hfind =>
    have hnone := List.find?_eq_none.1 hfind
    refine iff_of_false (by simp) ?_
    rintro ⟨r, hmem, hsel, -⟩
    exact hnone r hmem hsel

/-- R62: the row of each operation, from its `encoding` column. -/
def Instr.row (i : Instr) : Row := ⟨i, ~~~ignoredBits i, fixedBits i⟩

theorem Instr.row_mem (i : Instr) : i.row ∈ operationMap := by
  cases i <;> decide

/-- The table has no other rows. -/
theorem eq_row_of_mem_operationMap : ∀ r ∈ operationMap, r = r.instr.row := by decide

/-- R60, R62: a word decodes to `i` when the bits `i` decodes have the values of its `encoding` column. -/
theorem decode_eq_ok_iff_fixedBits : decode w = .ok i ↔ w &&& ~~~ignoredBits i = fixedBits i := by
  rw [decode_eq_ok_iff_row]
  constructor
  · rintro ⟨r, hmem, hsel, rfl⟩
    rw [eq_row_of_mem_operationMap r hmem] at hsel
    exact hsel
  · intro h
    exact ⟨i.row, i.row_mem, h, rfl⟩

theorem decodeFull_eq_ok_iff : decodeFull w = .ok (i, rest) ↔ decode w = .ok i ∧ w &&& ignoredBits i = rest := by
  unfold decodeFull
  split
  · next j h =>
    simp only [h, Except.ok.injEq, Prod.mk.injEq]
    constructor
    · rintro ⟨rfl, h'⟩; exact ⟨rfl, h'⟩
    · rintro ⟨rfl, h'⟩; exact ⟨rfl, h'⟩
  · next e h => simp [h]

theorem wellFormed_iff : wellFormed i rest = true ↔ rest &&& ~~~ignoredBits i = 0#8 := beq_iff_eq

theorem fixedBits_and_ignoredBits (i : Instr) : fixedBits i &&& ignoredBits i = 0#8 := by
  cases i <;> decide

/-- A word is read apart by a mask and its complement exactly as it is put together from words on each of the two. -/
theorem masked_iff_or {n : Nat} {x a b m : BitVec n} :
    x &&& ~~~m = a ∧ x &&& m = b ↔ x = a ||| b ∧ a &&& m = 0#n ∧ b &&& ~~~m = 0#n := by
  simp only [BitVec.eq_of_getElem_eq_iff, BitVec.getElem_and, BitVec.getElem_or, BitVec.getElem_not,
    BitVec.getElem_zero, ← forall_and]
  refine forall₂_congr fun j hj => ?_
  cases x[j] <;> cases a[j] <;> cases b[j] <;> cases m[j] <;> decide

/-- Settles O2: encoding joins the fixed bits and the rest, which lie on complementary masks, and decoding reads each of
the two by its mask. -/
theorem decodeInvertsEncode : Obligations.DecodeInvertsEncode := by
  constructor
  · intro i rest h
    rw [decodeFull_eq_ok_iff, decode_eq_ok_iff_fixedBits, masked_iff_or]
    exact ⟨rfl, fixedBits_and_ignoredBits i, wellFormed_iff.1 h⟩
  · intro w i rest h
    rw [decodeFull_eq_ok_iff, decode_eq_ok_iff_fixedBits, masked_iff_or] at h
    obtain ⟨hw, -, hrest⟩ := h
    exact ⟨wellFormed_iff.2 hrest, hw.symm⟩

end Sys2Proof
end

/-! ## The fields of the selector (O1, O3, O4, O5, O10) -/

section
namespace Sys2Proof

open Machine

variable {w : Selector} {i : Instr} {st : StateCode} {rst iv ready qz cz : Bool}

/-- Settles O1: each word is read by the table. -/
theorem spotSelectorsDecode : Obligations.SpotSelectorsDecode := by
  unfold Obligations.SpotSelectorsDecode
  decide

/-! Each field of SEL8 (R58) reads back what R60 puts there. -/

@[simp] theorem selRst_selectorWord : selRst (selectorWord rst st iv ready qz cz) = rst := by
  simp only [selRst, selectorWord, BitVec.getLsbD_append, BitVec.getLsbD_ofBool]
  simp

@[simp] theorem selSt_selectorWord : selSt (selectorWord rst st iv ready qz cz) = st := by
  refine BitVec.eq_of_getLsbD_eq fun j hj => ?_
  simp only [selSt, selectorWord, BitVec.getLsbD_extractLsb, BitVec.getLsbD_append, BitVec.getLsbD_ofBool]
  interval_cases j <;> simp

@[simp] theorem selIv_selectorWord : selIv (selectorWord rst st iv ready qz cz) = iv := by
  simp only [selIv, selectorWord, BitVec.getLsbD_append, BitVec.getLsbD_ofBool]
  simp

@[simp] theorem selOr_selectorWord : selOr (selectorWord rst st iv ready qz cz) = ready := by
  simp only [selOr, selectorWord, BitVec.getLsbD_append, BitVec.getLsbD_ofBool]
  simp

@[simp] theorem selQz_selectorWord : selQz (selectorWord rst st iv ready qz cz) = qz := by
  simp only [selQz, selectorWord, BitVec.getLsbD_append, BitVec.getLsbD_ofBool]
  simp

@[simp] theorem selCz_selectorWord : selCz (selectorWord rst st iv ready qz cz) = cz := by
  simp only [selCz, selectorWord, BitVec.getLsbD_append, BitVec.getLsbD_ofBool]
  simp

/-- R60: a selector is the concatenation of its six fields. -/
theorem selectorWord_of_fields (w : Selector) :
    selectorWord (selRst w) (selSt w) (selIv w) (selOr w) (selQz w) (selCz w) = w := by
  refine BitVec.eq_of_getLsbD_eq fun j hj => ?_
  simp only [selectorWord, BitVec.getLsbD_append, BitVec.getLsbD_ofBool, selRst, selSt, selIv, selOr, selQz, selCz,
    BitVec.getLsbD_extractLsb]
  interval_cases j <;> simp

/-- Settles O3: the fields of R58 and the predicates of R20. -/
theorem selectorFields : Obligations.SelectorFields := by
  intro s
  unfold selector
  refine ⟨selRst_selectorWord, selSt_selectorWord, selIv_selectorWord, selOr_selectorWord, ?_, ?_⟩
  · rw [selQz_selectorWord, qZero, beq_iff_eq]
  · rw [selCz_selectorWord, curZero_eq_true_iff, ← BitVec.toNat_inj, BitVec.toNat_ofNat]

theorem qZero_magWithQz (mag : Word) (qz : Bool) : qZero (magWithQz mag qz) = qz := by
  unfold magWithQz
  split
  · assumption
  · cases qz <;> decide

theorem curZero_cursorWithCz (cursor : Index) (cz : Bool) : curZero (cursorWithCz cursor cz) = cz := by
  unfold cursorWithCz
  split
  · assumption
  · cases cz <;> decide

/-- The pins and registers of `withSelector` give each field of the word back. -/
theorem selector_withSelector (s : State) (w : Selector) : selector (withSelector s w) = w := by
  calc selector (withSelector s w)
      = selectorWord (selRst w) (selSt w) (selIv w) (selOr w) (qZero (magWithQz s.mag (selQz w)))
          (curZero (cursorWithCz s.cursor (selCz w))) := rfl
    _ = w := by rw [qZero_magWithQz, curZero_cursorWithCz, selectorWord_of_fields]

theorem tableSelector_toNat (w : Selector) : tableSelector 8 w.toNat = w := by
  rw [tableSelector, Nat.mod_eq_of_lt w.isLt, BitVec.ofNat_toNat, BitVec.setWidth_eq]

/-- Settles O10. -/
theorem withFetchWordFormsSelector : Obligations.WithFetchWordFormsSelector := by
  intro s w
  rw [State.withFetchWord, tableSelector_toNat, selector_withSelector]

/-! What the decoder answers, by the fields of the selector: each of the three lemmas is a check over the fields that it
leaves open. -/

/-- R61: the operation of a tick with `rst = 0`, by the state and the four fields it may look at. -/
def Phase.operation (p : Phase) (iv ready qz cz : Bool) : Instr :=
  match p with
  | .idle => if iv then .accept else .idleWait
  | .conv => if qz then .convLast else .convStep
  | .lead => if ready then .leadSend else .leadHold
  | .digits => if ready then (if cz then .digitLast else .digitSend) else .digitHold
  | .trail => if ready then .trailSend else .trailHold

theorem decode_of_rst : decode (selectorWord true st iv ready qz cz) = .ok .reset := by
  revert st iv ready qz cz
  decide

theorem decode_of_phase (p : Phase) :
    decode (selectorWord false p.code iv ready qz cz) = .ok (p.operation iv ready qz cz) := by
  revert iv ready qz cz
  cases p <;> decide

theorem decode_of_illegal (h : legalCode st = false) :
    decode (selectorWord false st iv ready qz cz) = .error (.illegalStateCode st) := by
  revert st iv ready qz cz
  decide

/-- R56: the legal codes are those of the five states. -/
theorem exists_phase_of_legalCode (h : legalCode st = true) : ∃ p : Phase, st = p.code := by
  have hmem : st ∈ [Phase.idle, .conv, .lead, .digits, .trail].map Phase.code := by
    revert st
    decide
  obtain ⟨p, -, hp⟩ := List.mem_map.1 hmem
  exact ⟨p, hp.symm⟩

theorem legalCode_eq_false_iff : legalCode st = false ↔ 5 ≤ st.toNat := by
  simp only [legalCode, decide_eq_false_iff_not]
  omega

theorem legalCode_code (p : Phase) : legalCode p.code = true := by
  cases p <;> rfl

/-- R60, R66: a word is RESET, an operation of a state, or rejected for its state code. -/
theorem decode_cases (w : Selector) :
    (selRst w = true ∧ decode w = .ok .reset) ∨
    (selRst w = false ∧ ∃ p : Phase, selSt w = p.code ∧
      decode w = .ok (p.operation (selIv w) (selOr w) (selQz w) (selCz w))) ∨
    (selRst w = false ∧ legalCode (selSt w) = false ∧ decode w = .error (.illegalStateCode (selSt w))) := by
  have hw := selectorWord_of_fields w
  cases hr : selRst w <;> rw [hr] at hw
  case true => exact .inl ⟨rfl, hw ▸ decode_of_rst⟩
  case false =>
    cases hc : legalCode (selSt w)
    case true =>
      obtain ⟨p, hp⟩ := exists_phase_of_legalCode hc
      rw [hp] at hw
      refine .inr (.inl ⟨rfl, p, hp, ?_⟩)
      rw [← decode_of_phase, hw]
    case false =>
      refine .inr (.inr ⟨rfl, rfl, ?_⟩)
      rw [← decode_of_illegal hc, hw]

theorem legalSelector_iff : legalSelector w = true ↔ selRst w = true ∨ legalCode (selSt w) = true := by
  simp only [legalSelector, selRst, selSt, Bool.or_eq_true]

/-- R66: the words that R62 gives a meaning. -/
theorem exists_decode_eq_ok_iff_legalSelector : (∃ i, decode w = .ok i) ↔ legalSelector w = true := by
  rw [legalSelector_iff]
  obtain ⟨hr, hd⟩ | ⟨-, p, hp, hd⟩ | ⟨hr, hc, hd⟩ := decode_cases w
  · exact iff_of_true ⟨_, hd⟩ (.inl hr)
  · exact iff_of_true ⟨_, hd⟩ (.inr (hp ▸ legalCode_code p))
  · simp [hr, hc, hd]

/-- R66: a word is rejected for the state code it holds, with `rst = 0`. -/
theorem decode_eq_error_iff {e : DecodeError} : decode w = .error e ↔
    e = .illegalStateCode (selSt w) ∧ 5 ≤ (selSt w).toNat ∧ selRst w = false := by
  rw [← legalCode_eq_false_iff]
  obtain ⟨hr, hd⟩ | ⟨-, p, hp, hd⟩ | ⟨hr, hc, hd⟩ := decode_cases w
  · simp [hr, hd]
  · simp [hd, hp, legalCode_code]
  · simp [hr, hc, hd, eq_comm]

/-- The rows that match a word are the one row of the operation it decodes to. -/
theorem filter_selects_perm (h : decode w = .ok i) : (operationMap.filter fun r => r.selects w).Perm [i.row] := by
  have hnodup : operationMap.Nodup := by decide
  refine (List.perm_ext_iff_of_nodup (hnodup.filter _) (List.nodup_singleton _)).2 fun r => ?_
  have hrow : i.row.selects w = true := (Row.selects_iff _ _).2 (decode_eq_ok_iff_fixedBits.1 h)
  rw [List.mem_filter, List.mem_singleton]
  constructor
  · rintro ⟨hmem, hsel⟩
    exact Row.selects_unique hmem i.row_mem hsel hrow
  · rintro rfl
    exact ⟨i.row_mem, hrow⟩

/-- Settles O4: a word with a meaning matches the row of its operation and no other; a word without matches none. -/
theorem selectorRowsDisjointAndCover : Obligations.SelectorRowsDisjointAndCover := by
  refine ⟨fun s => rfl, fun w => ?_, fun w i => decode_eq_ok_iff_row⟩
  split
  · next h =>
    obtain ⟨i, hi⟩ := exists_decode_eq_ok_iff_legalSelector.2 h
    exact (filter_selects_perm hi).length_eq
  · next h =>
    rw [← exists_decode_eq_ok_iff_legalSelector] at h
    rw [List.length_eq_zero_iff, List.filter_eq_nil_iff]
    intro r hmem hsel
    exact h ⟨r.instr, decode_eq_ok_iff_row.2 ⟨r, hmem, (r.selects_iff w).1 hsel, rfl⟩⟩

theorem selRst_eq_false_iff : selRst w = false ↔ w.toNat < 0x80 := by
  rw [selRst, show w.getLsbD 7 = w.msb from (BitVec.msb_eq_getLsbD_last w).symm, BitVec.msb_eq_decide,
    decide_eq_false_iff_not, Nat.not_le]

theorem selSt_toNat : (selSt w).toNat = w.toNat / 16 % 8 := by
  simp [selSt, BitVec.extractLsb_toNat, Nat.shiftRight_eq_div_pow]

/-- Settles O5: the rejected words are those with the top bit 0 and a code of at least 5, and an operation is selected by
the words that agree with its fixed bits. -/
theorem illegalSelectorsRejected : Obligations.IllegalSelectorsRejected := by
  refine ⟨fun w => ?_, fun w e => decode_eq_error_iff.1, fun i => ?_⟩
  · simp only [decode_eq_error_iff, exists_eq_left, selRst_eq_false_iff, selSt_toNat]
    omega
  · simp only [decode_eq_ok_iff_fixedBits]
    cases i <;> rfl

end Sys2Proof
end

/-! ## The operation of a tick, and what a tick refuses (O6, O7, O8, O9) -/

section
namespace Sys2Proof.Machine

variable {s : State} {i : Instr}

/-- R61: in a state, with `rst = 0`. -/
theorem operation_of_code {p : Phase} (hr : (pinsNow s).rst = false) (hs : s.state = p.code) :
    operation s = .ok (p.operation (pinsNow s).inValid (pinsNow s).outReady (qZero s.mag) (curZero s.cursor)) := by
  rw [operation, selector, hr, hs, decode_of_phase]

theorem operation_of_rst (hr : (pinsNow s).rst = true) : operation s = .ok .reset := by
  rw [operation, selector, hr, decode_of_rst]

theorem operation_of_illegal (hr : (pinsNow s).rst = false) (hc : legalCode s.state = false) :
    operation s = .error (.illegalStateCode s.state) := by
  rw [operation, selector, hr, decode_of_illegal hc]

/-- Settles O6, by the operation of each state. -/
theorem operationByStateAndInputs : Obligations.OperationByStateAndInputs := by
  intro s
  refine ⟨operation_of_rst, fun hr => ⟨fun hs => ?_, fun hs => ?_, fun hs => ?_, fun hs => ?_, fun hs => ?_⟩⟩ <;>
    rw [operation_of_code hr hs]
  · rfl
  · simp only [Phase.operation, qZero, beq_iff_eq]
  · rfl
  · simp only [Phase.operation, curZero_eq_true_iff, ← BitVec.toNat_inj, BitVec.toNat_ofNat]
  · rfl

/-- A tick performs the operation and ends. -/
theorem step_of_operation (h : operation s = .ok i) : step s = andThen (exec i s) nextTick := by
  simp only [step, h]

theorem step_of_operation_error {c : StateCode} (h : operation s = .error (.illegalStateCode c)) :
    step s = .refused (.illegalStateCode c) := by
  simp only [step, h]

/-- Settles O8: `andThen` passes a fault and a refusal on. -/
theorem stepRunsDecodedOperation : Obligations.StepRunsDecodedOperation := by
  intro s i h
  rw [step_of_operation h]
  cases exec i s <;> rfl

/-- Settles O9: an illegal code decodes to an error, and an access to the buffer at index 10 to 15 is refused before the
rest of its operation. -/
theorem unspecifiedCasesRefusedByName : Obligations.UnspecifiedCasesRefusedByName := by
  refine ⟨fun s hr hc => ?_, fun s => ⟨fun hc => ?_, fun hc => ?_⟩⟩
  · exact step_of_operation_error (operation_of_illegal hr (legalCode_eq_false_iff.2 hc))
  · have hstore := storeDigit_of_ge (s := s) (Nat.not_lt_of_le hc)
    constructor
    · rw [exec, execConvStep, hstore, andThen_of_refused]
    · rw [exec, execConvLast, hstore, andThen_of_refused]
  · rw [exec, execDigitSend, sendSlot_of_ge (Nat.not_lt_of_le hc), andThen_of_refused]

/-- R63: where the pins look alike to the state, they select the same operation. -/
theorem operation_eq_of_pins {t : State} (hst : t.state = s.state) (hmag : t.mag = s.mag) (hcur : t.cursor = s.cursor)
    (hrst : (pinsNow t).rst = (pinsNow s).rst)
    (hidle : (pinsNow s).rst = false → s.state = Phase.idle.code → (pinsNow t).inValid = (pinsNow s).inValid)
    (hemit : (pinsNow s).rst = false → Emitting s → (pinsNow t).outReady = (pinsNow s).outReady) :
    operation t = operation s := by
  cases hr : (pinsNow s).rst
  case true => rw [operation_of_rst hr, operation_of_rst (hrst.trans hr)]
  case false =>
    cases hc : legalCode s.state
    case false =>
      rw [operation_of_illegal hr hc, operation_of_illegal (hrst.trans hr) (hst ▸ hc), hst]
    case true =>
      obtain ⟨p, hp⟩ := exists_phase_of_legalCode hc
      rw [operation_of_code hr hp, operation_of_code (hrst.trans hr) (hst.trans hp), hmag, hcur]
      cases p
      case idle => simp only [Phase.operation, hidle hr hp]
      case conv => rfl
      case lead => simp only [Phase.operation, hemit hr (.inl hp)]
      case digits => simp only [Phase.operation, hemit hr (.inr (.inl hp))]
      case trail => simp only [Phase.operation, hemit hr (.inr (.inr hp))]

/-- R77: ACCEPT alone reads a pin, `in_data`; what a tick leaves of the script is what follows its line. -/
theorem exec_script_cons (p q : Pins) (l : List Pins) (h : i = .accept → p.inData = q.inData) :
    andThen (exec i { s with script := p :: l }) nextTick = andThen (exec i { s with script := q :: l }) nextTick := by
  cases i
  case accept =>
    simp only [exec, execAccept, recv, pinsAt_script_cons, h rfl]
    rfl
  case convStep | convLast =>
    simp only [exec, execConvStep, execConvLast, storeDigit]
    cases memWrite s.buf s.count (lowDigit s.mag) <;> rfl
  case digitSend =>
    simp only [exec, execDigitSend, sendSlot]
    cases memRead s.buf s.cursor <;> rfl
  all_goals rfl

/-- R63, tick by tick. -/
theorem step_script_cons (s : State) (p q : Pins) (l : List Pins) (hrst : p.rst = q.rst)
    (hidle : p.rst = false → s.state = Phase.idle.code →
      p.inValid = q.inValid ∧ (p.inValid = true → p.inData = q.inData))
    (hemit : p.rst = false → Emitting s → p.outReady = q.outReady) :
    step { s with script := p :: l } = step { s with script := q :: l } := by
  have hop : operation { s with script := q :: l } = operation { s with script := p :: l } :=
    operation_eq_of_pins rfl rfl rfl hrst.symm (fun hr hs => (hidle hr hs).1.symm) fun hr he => (hemit hr he).symm
  cases hi : operation { s with script := p :: l } with
  | ok i =>
    rw [step_of_operation hi, step_of_operation (hop.trans hi)]
    refine exec_script_cons p q l fun ha => ?_
    subst ha
    obtain ⟨hr, hs, hv⟩ := operation_eq_ok_iff.1 hi
    exact (hidle hr hs).2 hv
  | error e =>
    cases e
    rw [step_of_operation_error hi, step_of_operation_error (hop.trans hi)]

/-- Settles O7: tick by tick, and for the decoder by the operation of each state, in which the ignored field does not
occur. -/
theorem ignoredInputsHaveNoEffect : Obligations.IgnoredInputsHaveNoEffect := by
  refine ⟨step_script_cons, fun st st' iv iv' ready ready' qz qz' cz cz' => ⟨?_, ?_⟩⟩
  · rw [decode_of_rst, decode_of_rst]
  cases hc : legalCode st
  case false =>
    refine ⟨fun _ => ?_, fun _ => ?_, fun _ => ?_, fun _ => ?_⟩ <;>
      rw [decode_of_illegal hc, decode_of_illegal hc]
  case true =>
    obtain ⟨p, rfl⟩ := exists_phase_of_legalCode hc
    simp only [decode_of_phase, ne_eq, code_inj, Except.ok.injEq]
    cases p <;> simp [Phase.operation]

end Sys2Proof.Machine
end

/-! ## The digits of a number, and of the buffer under the invariant -/

section
namespace Sys2Proof.Machine

variable {s : State}

theorem digitsLoop_eq_digits {fuel m : Nat} (hm : 0 < m) (hf : m ≤ fuel) :
    digitsLoop fuel m = Nat.digits Config.radix m := by
  induction fuel generalizing m with
  | zero => omega
  | succ fuel ih =>
    rw [digitsLoop, Nat.digits_def' (by decide) hm]
    split
    · next hq => rw [hq, Nat.digits_zero]
    · next hq => rw [ih (Nat.pos_of_ne_zero hq) (by simp only [Config.radix] at *; omega)]

/-- R90: but for 0, which has the digit 0, the do-while loop finds the digits of the number. -/
theorem digitsLsf_eq_digits {m : Nat} (hm : 0 < m) : digitsLsf m = Nat.digits Config.radix m :=
  digitsLoop_eq_digits hm le_rfl

theorem digitsLsf_of_le {m : Nat} (hm : m ≤ 9) : digitsLsf m = [m] := by
  interval_cases m <;> rfl

theorem digitsLsf_of_ten_le {m : Nat} (hm : 10 ≤ m) :
    digitsLsf m = m % Config.radix :: digitsLsf (m / Config.radix) := by
  have hq : 0 < m / Config.radix := Nat.div_pos hm (by decide)
  rw [digitsLsf_eq_digits hq, digitsLsf_eq_digits (by omega), Nat.digits_def' (by decide) (by omega)]

theorem digitCount_of_le {m : Nat} (hm : m ≤ 9) : digitCount m = 1 := by
  rw [digitCount, digitsLsf_of_le hm, List.length_singleton]

theorem digitCount_of_ten_le {m : Nat} (hm : 10 ≤ m) : digitCount m = digitCount (m / Config.radix) + 1 := by
  rw [digitCount, digitsLsf_of_ten_le hm, List.length_cons, digitCount]

theorem digitCount_pos (m : Nat) : 0 < digitCount m := by
  by_cases hm : m ≤ 9
  · simp [digitCount_of_le hm]
  · simp [digitCount_of_ten_le (Nat.lt_of_not_le hm)]

@[simp] theorem length_bufDigits (b : Memory) (n : Nat) : (bufDigits b n).length = n := by simp [bufDigits]

theorem bufDigits_succ (b : Memory) (n : Nat) :
    bufDigits b (n + 1) = bufDigits b n ++ [(Memory.read b n).toNat] := by
  simp [bufDigits, List.range_succ]

/-- The value of the buffer is that of its digits. -/
theorem ofDigits_bufDigits (b : Memory) (n : Nat) : Nat.ofDigits Config.radix (bufDigits b n) = bufValue b n := by
  induction n with
  | zero => rfl
  | succ n ih =>
    rw [bufDigits_succ, Nat.ofDigits_append, ih, Nat.ofDigits_singleton, length_bufDigits, bufValue, Nat.mul_comm]

/-- R94: digits without a leading zero are determined by their value, which R32 (c) gives. -/
theorem EmitInvariant.bufDigits_eq (h : EmitInvariant s) :
    bufDigits s.buf s.count.toNat = digitsLsf (magnitude s.val) := by
  obtain ⟨-, hvalue⟩ := h.sum
  obtain ⟨hlead, hone⟩ := h.noLeadingZero
  by_cases hm : magnitude s.val ≤ 9
  · rw [digitsLsf_of_le hm, ← hvalue, hone.2 hm]
    simp [bufDigits, bufValue]
  · rw [digitsLsf_eq_digits (by omega), ← hvalue, ← ofDigits_bufDigits, Nat.digits_ofDigits _ (by decide)]
    · simp only [bufDigits, List.mem_map, List.mem_range]
      rintro d ⟨j, hj, rfl⟩
      exact Nat.lt_succ_of_le (h.digits j hj)
    · obtain ⟨hpos, -⟩ := h.filled
      obtain ⟨k, hk⟩ := Nat.exists_eq_add_of_le' hpos
      have hne := hlead.resolve_left (mt hone.1 hm)
      rw [hk, Nat.add_sub_cancel] at hne
      rw [hk, bufDigits_succ]
      simpa [BitVec.toNat_eq] using hne

theorem EmitInvariant.count_eq (h : EmitInvariant s) : s.count.toNat = digitCount (magnitude s.val) := by
  rw [digitCount, ← h.bufDigits_eq, length_bufDigits]

/-- R10: `s32` is two's complement. -/
theorem s32_eq_toInt (w : Word) : s32 w = w.toInt := by
  rw [s32, BitVec.toInt_eq_msb_cond, show w.getLsbD 31 = w.msb from (BitVec.msb_eq_getLsbD_last w).symm]
  split <;> simp

/-- R19: the sign flag is 1 for a negative value. -/
theorem signOf_eq_decide (w : Word) : signOf w = decide (s32 w < 0) := by
  rw [s32_eq_toInt, signOf, show w.getLsbD 31 = w.msb from (BitVec.msb_eq_getLsbD_last w).symm, BitVec.msb_eq_toInt]

theorem leadByte_signOf (w : Word) : leadByte (signOf w) = lead (s32 w) := by
  simp only [leadByte, lead, signOf_eq_decide, decide_eq_true_eq]

theorem digitByte_eq_asciiDigit (d : Slot) : digitByte d = asciiDigit d.toNat := by
  simp [digitByte, asciiDigit]

end Sys2Proof.Machine
end

/-! ## The bytes on offer (O40) -/

section
namespace Sys2Proof.Machine

variable {s : State} {b : Byte}

/-- R32: the digit on offer lies in the buffer. -/
theorem cursor_lt_of_invariant (h : Invariant s) (hs : s.state = Phase.digits.code) :
    s.cursor.toNat < s.count.toNat ∧ s.count.toNat ≤ Config.bufCap := by
  obtain ⟨-, hdigits, -⟩ := widthsSuffice s h
  obtain ⟨hlt, hle, -, -⟩ := hdigits hs
  exact ⟨hlt, hle⟩

/-- Settles O40, state by state; in `DIGITS` R32 (d) says that the slot on offer holds a digit. -/
theorem offeredBytesAreFrameBytes : Obligations.OfferedBytesAreFrameBytes := by
  intro s h
  have hcap (hs : s.state = Phase.digits.code) : s.cursor.toNat < Config.bufCap :=
    (cursor_lt_of_invariant h hs).1.trans_le (cursor_lt_of_invariant h hs).2
  refine ⟨fun he => he.outData_isSome hcap, fun b hb => ?_⟩
  cases hp : phase? s with
  | none => simp [outData, hp] at hb
  | some p =>
    have hs := (phase?_eq p).1 hp
    cases p
    case idle => simp [outData_of_idle hs] at hb
    case conv => simp [outData_of_conv hs] at hb
    case lead =>
      obtain rfl : leadByte s.sign = b := by simpa [outData_of_lead hs] using hb
      cases s.sign
      · exact .inl rfl
      · exact .inr (.inl rfl)
    case digits =>
      obtain rfl : digitByte (Memory.read s.buf s.cursor.toNat) = b := by
        simpa [outData_of_digits hs (hcap hs)] using hb
      have hdigit := ((invariant_iff_of_digits hs).1 h).1.digits _ (cursor_lt_of_invariant h hs).1
      rw [digitByte_toNat]
      exact .inr (.inr ⟨by omega, by omega⟩)
    case trail =>
      obtain rfl : spaceByte = b := by simpa [outData_of_trail hs] using hb
      exact .inl rfl

end Sys2Proof.Machine
end

/-! ## Sequences of operations -/

section
namespace Sys2Proof.Machine

variable {s t u : State} {i : Instr} {l l' : List Instr} {m n : Nat}

/-- From `s` the ticks to come perform the operations `l`, in order, and end in `t`. -/
inductive Performs : List Instr → State → State → Prop
  | nil (s : State) : Performs [] s s
  | cons {i : Instr} {l : List Instr} {s u t : State} :
      Selected i s → exec i s = .next u → Performs l (nextTick u) t → Performs (i :: l) s t

namespace Performs

theorem single (hi : Selected i s) (hu : exec i s = .next u) : Performs [i] s (nextTick u) := cons hi hu (nil _)

theorem append (h : Performs l s u) (h' : Performs l' u t) : Performs (l ++ l') s t := by
  induction h with
  | nil => exact h'
  | cons hi hu _ ih => exact cons hi hu (ih h')

theorem run_eq (h : Performs l s t) : run l.length s = .next t := by
  induction h with
  | nil => rfl
  | cons hi hu _ ih => exact run_succ.2 ⟨_, step_of_selected hi hu, ih⟩

theorem operations_eq (h : Performs l s t) : operations l.length s = l := by
  induction h with
  | nil => rfl
  | cons hi hu _ ih =>
    simp only [List.length_cons, operations, operation_eq_ok_iff.2 hi, step_of_selected hi hu, ih]

theorem invariant (h : Performs l s t) (hinv : Invariant s) : Invariant t := by
  induction h with
  | nil => exact hinv
  | cons hi hu _ ih => exact ih (invariant_nextTick (exec_keeps_invariant hinv hi hu))

/-- Each tick uses up a line of the script and adds one to the tick number. -/
theorem script_tick (h : Performs l s t) :
    t.script = s.script.drop l.length ∧ t.tick = s.tick + l.length := by
  induction h with
  | nil => exact ⟨rfl, rfl⟩
  | @cons i l s u t hi hu _ ih =>
    obtain ⟨hscript, htick⟩ := ih
    obtain ⟨-, -, -, -, -, -, -, -, -, hscript', htick'⟩ := operationsChangeOnlyNamedRegisters i s u hu
    rw [hscript, htick, nextTick_script, nextTick_tick, hscript', htick', List.length_cons, List.drop_tail]
    exact ⟨rfl, by omega⟩

theorem pinsAt_eq (h : Performs l s t) (hl : l.length = m) (k : Nat) : pinsAt t k = pinsAt s (m + k) := by
  obtain ⟨hscript, htick⟩ := h.script_tick
  unfold pinsAt
  rw [← hl, hscript, htick, List.getElem?_drop, Nat.add_assoc]

end Performs

/-- `rst = 0` and `out_ready = 1` on each of the next `n` ticks. -/
def Drained (n : Nat) (s : State) : Prop := ∀ k, k < n → (pinsAt s k).rst = false ∧ (pinsAt s k).outReady = true

theorem Performs.resetFree (h : Performs l s t) (hl : l.length = m) (hr : ResetFree (m + n) s) : ResetFree n t := by
  intro k hk
  rw [h.pinsAt_eq hl]
  exact hr _ (Nat.add_lt_add_left hk _)

theorem Performs.drained (h : Performs l s t) (hl : l.length = m) (hd : Drained (m + n) s) : Drained n t := by
  intro k hk
  rw [h.pinsAt_eq hl]
  exact hd _ (Nat.add_lt_add_left hk _)

theorem stamped_append (k : Nat) (a b : List Byte) :
    stamped k (a ++ b) = stamped k a ++ stamped (k + a.length) b := by
  induction a generalizing k with
  | nil => rfl
  | cons x a ih =>
    simp only [List.cons_append, stamped, ih, List.length_cons]
    rw [Nat.add_right_comm, Nat.add_assoc]

theorem sentBytes_append (a b : List OutputTransaction) : sentBytes (a ++ b) = sentBytes a ++ sentBytes b :=
  List.map_append

theorem sentBytes_stamped (k : Nat) (a : List Byte) : sentBytes (stamped k a) = a := by
  induction a generalizing k with
  | nil => rfl
  | cons x a ih => exact congrArg (x :: ·) (ih (k + 1))

end Sys2Proof.Machine
end

/-! ## A request from ACCEPT to TRAIL_SEND (O50) -/

section
namespace Sys2Proof.Machine

variable {s t u : State} {n : Nat}

/-- R31 (b): in `CONV` there is a slot for the next digit. -/
theorem count_lt_of_invariant (h : Invariant s) (hs : s.state = Phase.conv.code) : s.count.toNat < Config.bufCap :=
  Nat.lt_succ_of_le ((invariant_iff_of_conv hs).1 h).room

/-- R93: the operations of a conversion into `n + 1` digits. -/
theorem performs_conversion (hs : s.state = Phase.conv.code) (hinv : Invariant s)
    (hn : digitCount s.mag.toNat = n + 1) (hr : ResetFree (n + 1) s) :
    ∃ t, Performs (List.replicate n .convStep ++ [.convLast]) s t ∧ t.state = Phase.lead.code ∧ t.val = s.val ∧
      t.taken = s.taken ∧ t.sent = s.sent := by
  induction n generalizing s with
  | zero =>
    have hlt := count_lt_of_invariant hinv hs
    have hm : s.mag.toNat ≤ 9 := by
      by_contra hm
      rw [digitCount_of_ten_le (Nat.lt_of_not_le hm)] at hn
      have := digitCount_pos (s.mag.toNat / Config.radix)
      omega
    exact ⟨_, .single (i := .convLast) ⟨hr 0 Nat.one_pos, hs, hm⟩ (exec_next.2 ⟨hlt, rfl⟩), rfl, rfl, rfl, rfl⟩
  | succ n ih =>
    have hlt := count_lt_of_invariant hinv hs
    have hm : 10 ≤ s.mag.toNat := by
      by_contra hm
      rw [digitCount_of_le (by omega)] at hn
      omega
    have hstep := Performs.single (i := .convStep) ⟨hr 0 (Nat.succ_pos _), hs, hm⟩ (exec_next.2 ⟨hlt, rfl⟩)
    rw [digitCount_of_ten_le hm, ← quotient_toNat, Nat.add_right_cancel_iff] at hn
    obtain ⟨t, ht, hlead, hval, htaken, hsent⟩ := ih (by exact hs) (hstep.invariant hinv) hn
      (hstep.resetFree rfl (by rwa [Nat.add_comm]))
    exact ⟨t, hstep.append ht, hlead, hval, htaken, hsent⟩

/-- R104, R105: from slot `n` on, the digits go out, the most significant first, one on each tick. -/
theorem performs_digits (hs : s.state = Phase.digits.code) (hc : s.cursor.toNat = n) (hn : n < Config.bufCap)
    (hd : Drained (n + 1) s) :
    ∃ t, Performs (List.replicate n .digitSend ++ [.digitLast]) s t ∧ t.state = Phase.trail.code ∧
      t.taken = s.taken ∧ t.sent = s.sent ++ stamped s.tick ((bufDigits s.buf (n + 1)).reverse.map asciiDigit) := by
  obtain ⟨hr, ho⟩ := hd 0 (Nat.succ_pos n)
  induction n generalizing s with
  | zero =>
    have hzero : s.cursor = 0#4 := BitVec.eq_of_toNat_eq hc
    refine ⟨_, .single (i := .digitLast) ⟨hr, hs, ho, hzero⟩ (exec_next.2 rfl), rfl, rfl, ?_⟩
    simp [bufDigits, stamped, digitByte_eq_asciiDigit]
  | succ n ih =>
    have hne : s.cursor ≠ 0#4 := by
      intro h
      simp [h] at hc
    have hsend := Performs.single (i := .digitSend) ⟨hr, hs, ho, hne⟩ (exec_next.2 ⟨hc ▸ hn, rfl⟩)
    have hd' : Drained (n + 1) _ := hsend.drained rfl (by rwa [Nat.add_comm])
    obtain ⟨hr', ho'⟩ := hd' 0 (Nat.succ_pos n)
    obtain ⟨t, ht, htrail, htaken, hsent⟩ := ih (by exact hs)
      ((index_sub_one_toNat hne).trans (by omega)) (by omega) hd' hr' ho'
    refine ⟨t, hsend.append ht, htrail, htaken, hsent.trans ?_⟩
    rw [bufDigits_succ s.buf (n + 1), List.reverse_append, ← hc]
    simp [stamped, digitByte_eq_asciiDigit]

/-- R94, R120: the bytes of the frame, as an emission state under R32 holds them. -/
theorem EmitInvariant.frame_eq (h : EmitInvariant s) : frame (s32 s.val) =
    [leadByte s.sign] ++ (bufDigits s.buf s.count.toNat).reverse.map asciiDigit ++ [spaceByte] := by
  rw [h.sign, leadByte_signOf, h.bufDigits_eq]
  rfl

/-- R102 to R107: with a ready consumer the frame of the request goes out, one byte on each tick. -/
theorem performs_emission (hs : s.state = Phase.lead.code) (hinv : Invariant s) (hn : s.count.toNat = n + 1)
    (hd : Drained (n + 3) s) :
    ∃ t, Performs ([.leadSend] ++ (List.replicate n .digitSend ++ [.digitLast]) ++ [.trailSend]) s t ∧ PostReset t ∧
      t.taken = s.taken ∧ t.sent = s.sent ++ stamped s.tick (frame (s32 s.val)) := by
  obtain ⟨hemit, hcur⟩ := (invariant_iff_of_lead hs).1 hinv
  obtain ⟨-, hcap⟩ := hemit.filled
  obtain ⟨hr, ho⟩ := hd 0 (Nat.succ_pos _)
  have hlead := Performs.single (i := .leadSend) ⟨hr, hs, ho⟩ (exec_next.2 rfl)
  have hd1 : Drained (n + 2) _ := hlead.drained rfl (by rwa [Nat.add_comm])
  obtain ⟨t, ht, hstate, htaken, hsent⟩ := performs_digits (n := n)
    (s := nextTick (goto .digits (send (leadByte s.sign) s))) rfl (hcur.trans (by omega))
    (by simp only [Config.bufCap]; omega) fun k hk => hd1 k (by omega)
  have hdigits := hlead.append ht
  obtain ⟨-, htick⟩ := hdigits.script_tick
  have hd2 : Drained 1 t := hdigits.drained (m := n + 2) (by simp) hd
  obtain ⟨hr2, ho2⟩ := hd2 0 Nat.one_pos
  have htrail := Performs.single (i := .trailSend) ⟨hr2, hstate, ho2⟩ (exec_next.2 rfl)
  refine ⟨_, hdigits.append htrail, rfl, htaken, ?_⟩
  simp [hemit.frame_eq, hn, hsent, htick, stamped_append, stamped, Nat.add_comm, Nat.add_left_comm]

/-- R73: the operations of a request of `n` digits. -/
def printOperations (n : Nat) : List Instr :=
  .accept :: (List.replicate (n - 1) .convStep ++ [.convLast, .leadSend] ++
    List.replicate (n - 1) .digitSend ++ [.digitLast, .trailSend])

/-- R173: a request taken in a post-reset state, with a consumer that is ready once the conversion is over. -/
theorem performs_print (hs : PostReset s) (hv : (pinsNow s).inValid = true)
    (hn : n = digitCount (magnitude (pinsNow s).inData)) (hr : ResetFree (2 * n + 3) s)
    (ho : ∀ k, n < k → k < 2 * n + 3 → (pinsAt s k).outReady = true) :
    ∃ t, Performs (printOperations n) s t ∧ PostReset t ∧ t.taken = s.taken ++ [⟨s.tick, (pinsNow s).inData⟩] ∧
      t.sent = s.sent ++ stamped (s.tick + n + 1) (frame (s32 (pinsNow s).inData)) := by
  obtain ⟨m, rfl⟩ : ∃ m, n = m + 1 := Nat.exists_eq_add_of_le' (hn ▸ digitCount_pos _)
  have haccept := Performs.single (i := .accept) ⟨hr 0 (Nat.succ_pos _), hs, hv⟩ (exec_next.2 rfl)
  obtain ⟨t, ht, hlead, hval, htaken, hsent⟩ := performs_conversion (n := m) rfl
    (haccept.invariant (invariant_of_idle hs)) ((congrArg digitCount (abs32_toNat _)).trans hn.symm)
    (haccept.resetFree (m := 1) rfl fun k hk => hr k (by omega))
  have hconv := haccept.append ht
  obtain ⟨-, htick⟩ := hconv.script_tick
  have hinv := hconv.invariant (invariant_of_idle hs)
  have hcount : t.count.toNat = m + 1 := by
    rw [((invariant_iff_of_lead hlead).1 hinv).1.count_eq, hval, hn]
    rfl
  obtain ⟨u, hu, hidle, htaken', hsent'⟩ := performs_emission hlead hinv hcount
    fun k hk => hconv.pinsAt_eq (m := m + 2) (by simp) k ▸ ⟨hr _ (by omega), ho _ (by omega) (by omega)⟩
  refine ⟨u, ?_, hidle, htaken'.trans htaken, ?_⟩
  · simpa [printOperations] using hconv.append hu
  · rw [hsent', hsent, htick, hval]
    simp [Nat.add_assoc]

theorem length_printOperations (hn : 0 < n) : (printOperations n).length = 2 * n + 3 := by
  simp only [printOperations, List.length_cons, List.length_append, List.length_replicate, List.length_nil]
  omega

theorem s32_ofInt {v : Int} (h : -2147483648 ≤ v) (h' : v ≤ 2147483647) : s32 (BitVec.ofInt 32 v) = v := by
  rw [s32_eq_toInt]
  exact BitVec.toInt_ofInt_eq_self (by decide) (by omega) (by omega)

/-- R73: the pins of the ticks of `PRINT v`. -/
theorem pinsAt_printScript {v : Int} {other : Word} {l : List Pins} (h : s.script = printScript v other ++ l) {k : Nat}
    (hk : k < 2 * digitCount v.natAbs + 3) :
    pinsAt s k = if k = 0 then stimulusLine false true v true else ⟨false, false, other, true⟩ := by
  have hget : s.script[k]? =
      some (if k = 0 then stimulusLine false true v true else ⟨false, false, other, true⟩) := by
    rw [h, printScript]
    cases k with
    | zero => rfl
    | succ k =>
      rw [List.cons_append, List.getElem?_cons_succ, List.getElem?_append_left (by rw [List.length_replicate]; omega),
        List.getElem?_replicate, if_pos (by omega), if_neg (Nat.succ_ne_zero k)]
  simp only [pinsAt, hget]

/-- Settles O50: the script offers `v` first and is ready from then on. -/
theorem printOperationSequence : Obligations.PrintOperationSequence := by
  intro s v n other l hs hlow hhigh hn hscript
  subst hn
  have hpins := fun k => pinsAt_printScript hscript (k := k)
  have hnow : pinsNow s = stimulusLine false true v true := hpins 0 (by omega)
  have hval : s32 (pinsNow s).inData = v := by
    rw [hnow]
    exact s32_ofInt hlow hhigh
  have hrest (k : Nat) (hk : k < 2 * digitCount v.natAbs + 3) :
      (pinsAt s k).rst = false ∧ (pinsAt s k).outReady = true := by
    rw [hpins k hk]
    split <;> exact ⟨rfl, rfl⟩
  obtain ⟨t, ht, hidle, -, hsent⟩ := performs_print hs (by rw [hnow]; rfl)
    (show digitCount v.natAbs = _ by rw [magnitude, hval]) (fun k hk => (hrest k hk).1) fun k _ hk => (hrest k hk).2
  have hlen := length_printOperations (digitCount_pos v.natAbs)
  obtain ⟨hdrop, -⟩ := ht.script_tick
  rw [← hlen]
  refine ⟨ht.operations_eq, t, ht.run_eq, hidle, ?_, ?_⟩
  · rw [hdrop, hlen, hscript, List.drop_left' (by simp [printScript])]
  · rw [hsent, hval, sentBytes_append, sentBytes_stamped]

end Sys2Proof.Machine
end

/-! ## The input acceptor (O12, O13) -/

section
namespace Sys2Proof.Machine

variable {s : State}

/-- R46: nothing is on offer in `IDLE`, so nothing is sent, whatever the consumer does. -/
theorem outputTransaction_of_idle (hs : s.state = Phase.idle.code) : outputTransaction s = none :=
  if_neg fun ⟨_, hv, _⟩ => not_emitting_of_idle hs (outValid_eq_true_iff.1 hv)

/-- Settles O12: with no value offered IDLE_WAIT is selected, and its next state is the state itself. -/
theorem idleWaitOperation : Obligations.IdleWaitOperation := by
  intro s hs hr hv
  have hsel : Selected .idleWait s := ⟨hr, hs, hv⟩
  have hexec : exec .idleWait s = .next s := exec_next.2 rfl
  exact ⟨operation_eq_ok_iff.2 hsel, inReady_of_code hs, outValid_of_code hs, outData_of_idle hs,
    hsel.inputTransaction_eq, outputTransaction_of_idle hs, hexec, step_of_selected hsel hexec⟩

/-- Settles O13: an offered value selects ACCEPT, whose next state is known; the sign bit is the sign of the value and
`abs32` its magnitude. -/
theorem acceptOperation : Obligations.AcceptOperation := by
  intro s hs hr hv
  have hsel : Selected .accept s := ⟨hr, hs, hv⟩
  have hexec := (exec_next (i := .accept) (s := s)).2 rfl
  have hsign : signOf (pinsNow s).inData = true ↔ s32 (pinsNow s).inData < 0 := by
    rw [signOf_eq_decide, decide_eq_true_iff]
  refine ⟨operation_eq_ok_iff.2 hsel, inReady_of_code hs, outValid_of_code hs, hsel.inputTransaction_eq,
    outputTransaction_of_idle hs, _, hexec, step_of_selected hsel hexec, ?_⟩
  exact ⟨rfl, rfl, hsign, rfl, abs32_toNat _, rfl, rfl, rfl, rfl⟩

end Sys2Proof.Machine
end

/-! ## The pure functions of the conversion (O54, O55, O56) -/

section
namespace Sys2Proof.Machine

/-- Settles O54: two's complement and the bound on magnitudes are known for every word; the extreme word is computed. -/
theorem absIsMagnitude : Obligations.AbsIsMagnitude :=
  ⟨fun w => ⟨rfl, abs32_toNat w, magnitude_le w, s32_eq_toInt w⟩, by decide⟩

/-- R90: the loop stops when the quotient is 0, which is below 10. -/
theorem digitsLsf_eq (m : Nat) :
    digitsLsf m = if m / 10 = 0 then [m % 10] else m % 10 :: digitsLsf (m / 10) := by
  split
  · next hq => rw [digitsLsf_of_le (by omega), Nat.mod_eq_of_lt (by omega)]
  · next hq => exact digitsLsf_of_ten_le (by omega)

theorem le_of_mem_digitsLsf {m d : Nat} (hd : d ∈ digitsLsf m) : d ≤ 9 := by
  obtain rfl | hm := m.eq_zero_or_pos
  · rw [digitsLsf_of_le (Nat.zero_le 9), List.mem_singleton] at hd
    omega
  · rw [digitsLsf_eq_digits hm] at hd
    exact Nat.le_of_lt_succ (Nat.digits_lt_base (by decide) hd)

/-- The value of a list of digits is Mathlib's. -/
theorem digitsValue_eq_ofDigits (l : List Nat) : digitsValue l = Nat.ofDigits Config.radix l := by
  induction l with
  | nil => rfl
  | cons d l ih => rw [digitsValue, ih, Nat.ofDigits_cons]

theorem digitsValue_digitsLsf (m : Nat) : digitsValue (digitsLsf m) = m := by
  obtain rfl | hm := m.eq_zero_or_pos
  · rfl
  · rw [digitsValue_eq_ofDigits, digitsLsf_eq_digits hm, Nat.ofDigits_digits]

/-- R90: no leading zero, but for the number 0. -/
theorem getLast?_digitsLsf_ne_zero {m : Nat} (hm : 0 < m) : (digitsLsf m).getLast? ≠ some 0 := by
  have hne : Nat.digits Config.radix m ≠ [] := Nat.digits_ne_nil_iff_ne_zero.2 hm.ne'
  rw [digitsLsf_eq_digits hm, List.getLast?_eq_some_getLast hne, Ne, Option.some_inj]
  exact Nat.getLast_digit_ne_zero _ hm.ne'

/-- R90: the number of digits; 0 has one, and `Nat.log` is 0 there. -/
theorem digitCount_eq_log (m : Nat) : digitCount m = Nat.log 10 m + 1 := by
  obtain rfl | hm := m.eq_zero_or_pos
  · rw [digitCount_of_le (Nat.zero_le 9), Nat.log_zero_right]
  · rw [digitCount, digitsLsf_eq_digits hm, Nat.length_digits _ _ (by decide) hm.ne']

/-- Settles O55: the loop's equation, and Mathlib's facts about the digits of a positive number. -/
theorem digitsOfANumber : Obligations.DigitsOfANumber := fun m =>
  ⟨digitsLsf_eq m, fun _ => le_of_mem_digitsLsf, digitsValue_digitsLsf m,
    fun hm => ⟨getLast?_digitsLsf_ne_zero hm, digitCount_eq_log m⟩, digitsLsf_of_le (Nat.zero_le 9), rfl⟩

/-- Settles O56: the digit count is one more than the logarithm, which the powers of ten bound. -/
theorem digitCountOfANumber : Obligations.DigitCountOfANumber := by
  intro m
  refine ⟨rfl, digitCount_of_le, fun k hk hlow hhigh => ?_, digitCount_pos m, ?_, fun hm => ?_⟩
  · obtain ⟨j, rfl⟩ := Nat.exists_eq_add_of_le' hk
    rw [digitCount_eq_log, Nat.add_left_inj]
    exact Nat.log_eq_of_pow_le_of_lt_pow hlow hhigh
  · rw [digitCount_eq_log]
    exact Nat.lt_pow_succ_log_self (by decide) m
  · rw [digitCount_eq_log]
    exact Nat.log_lt_of_lt_pow' (by decide) (by omega)

end Sys2Proof.Machine
end

/-! ## The conversion engine (O14, O15, O39, O48) -/

section
namespace Sys2Proof.Machine

variable {s t : State} {l l' : List Instr} {n : Nat}

/-- R46: nothing is on offer in `CONV`, so nothing is sent, whatever the consumer does. -/
theorem outputTransaction_of_conv (hs : s.state = Phase.conv.code) : outputTransaction s = none :=
  if_neg fun ⟨_, hv, _⟩ => not_emitting_of_conv hs (outValid_eq_true_iff.1 hv)

/-- R88, R89: the slot the engine writes holds the low digit of `mag`, and the others keep their value. -/
theorem read_write_lowDigit (b : Memory) (i : Nat) (mag : Word) :
    (Memory.read (Memory.write b i (lowDigit mag)) i).toNat = mag.toNat % 10 ∧
    ∀ j, j ≠ i → Memory.read (Memory.write b i (lowDigit mag)) j = Memory.read b j := by
  simp only [Memory.read_write, if_true]
  exact ⟨lowDigit_toNat mag, fun j hj => if_neg hj⟩

/-- Settles O14: `mag` at least 10 selects CONV_STEP, whose next state is known. -/
theorem convStepOperation : Obligations.ConvStepOperation := by
  intro s hs hr hm hc
  have hlt : s.count.toNat < Config.bufCap := Nat.lt_succ_of_le hc
  have hsel : Selected .convStep s := ⟨hr, hs, hm⟩
  have hexec := (exec_next (i := .convStep) (s := s)).2 ⟨hlt, rfl⟩
  obtain ⟨hslot, hothers⟩ := read_write_lowDigit s.buf s.count.toNat s.mag
  refine ⟨operation_eq_ok_iff.2 hsel, inReady_of_code hs, outValid_of_code hs, outData_of_conv hs,
    hsel.inputTransaction_eq, outputTransaction_of_conv hs, _, hexec, step_of_selected hsel hexec, hslot, hothers,
    quotient_toNat _, ?_, index_add_one_toNat hlt, hs, rfl⟩
  rw [quotient_toNat]
  exact Nat.div_pos hm (by decide)

/-- Settles O15: `mag` at most 9 selects CONV_LAST, whose next state is known; `mag` is its own last digit. -/
theorem convLastOperation : Obligations.ConvLastOperation := by
  intro s hs hr hm hc
  have hlt : s.count.toNat < Config.bufCap := Nat.lt_succ_of_le hc
  have hsel : Selected .convLast s := ⟨hr, hs, hm⟩
  have hexec := (exec_next (i := .convLast) (s := s)).2 ⟨hlt, rfl⟩
  obtain ⟨hslot, hothers⟩ := read_write_lowDigit s.buf s.count.toNat s.mag
  have hdigit : s.mag.toNat % 10 = s.mag.toNat := Nat.mod_eq_of_lt (Nat.lt_succ_of_le hm)
  have hquot : s.mag.toNat / 10 = 0 := Nat.div_eq_of_lt (Nat.lt_succ_of_le hm)
  exact ⟨operation_eq_ok_iff.2 hsel, inReady_of_code hs, outValid_of_code hs, outData_of_conv hs,
    hsel.inputTransaction_eq, outputTransaction_of_conv hs, _, hexec, step_of_selected hsel hexec, hslot,
    hslot.trans hdigit, hothers, rfl, hquot.symm, rfl, index_add_one_toNat hlt, rfl, rfl⟩

/-- R32 (a) to (e) hold in each of the three emission states. -/
theorem Emitting.emitInvariant (he : Emitting s) (h : Invariant s) : EmitInvariant s := by
  obtain hs | hs | hs := he
  · exact ((invariant_iff_of_lead hs).1 h).1
  · exact ((invariant_iff_of_digits hs).1 h).1
  · exact ((invariant_iff_of_trail hs).1 h).1

/-- Settles O39: R32 determines the digits in the buffer. -/
theorem engineDeliversDigits : Obligations.EngineDeliversDigits := by
  intro s h he
  have hemit := he.emitInvariant h
  exact ⟨hemit.sign.trans (signOf_eq_decide s.val), hemit.count_eq, hemit.bufDigits_eq⟩

/-- A sequence of operations passes through a state wherever it is cut. -/
theorem Performs.cut (h : Performs (l ++ l') s t) : ∃ u, Performs l s u ∧ Performs l' u t := by
  induction l generalizing s with
  | nil => exact ⟨s, .nil s, h⟩
  | cons i l ih =>
    obtain _ | ⟨hi, hu, hrest⟩ := h
    obtain ⟨v, hl, hl'⟩ := ih hrest
    exact ⟨v, .cons hi hu hl, hl'⟩

/-- R93: the rest of a conversion is performed from `CONV`, which selects its first operation. -/
theorem Performs.state_eq_conv (h : Performs (List.replicate n .convStep ++ [.convLast]) s t) :
    s.state = Phase.conv.code := by
  cases n with
  | zero => obtain _ | ⟨⟨-, hs, -⟩, -, -⟩ := h; exact hs
  | succ n => obtain _ | ⟨⟨-, hs, -⟩, -, -⟩ := h; exact hs

/-- R77, R93: a value of `n + 1` digits is taken and converted in `n + 2` ticks, whatever the other pins do. -/
theorem performs_request (hs : PostReset s) (hv : (pinsNow s).inValid = true)
    (hn : digitCount (magnitude (pinsNow s).inData) = n + 1) (hr : ResetFree (n + 2) s) :
    ∃ t, Performs ([.accept] ++ (List.replicate n .convStep ++ [.convLast])) s t ∧ t.state = Phase.lead.code ∧
      t.val = (pinsNow s).inData ∧ t.taken = s.taken ++ [⟨s.tick, (pinsNow s).inData⟩] ∧ t.sent = s.sent := by
  have haccept := Performs.single (i := .accept) ⟨hr 0 (Nat.succ_pos _), hs, hv⟩ (exec_next.2 rfl)
  obtain ⟨t, ht, hlead, hval, htaken, hsent⟩ := performs_conversion (n := n) rfl
    (haccept.invariant (invariant_of_idle hs)) ((congrArg digitCount (abs32_toNat _)).trans hn)
    (haccept.resetFree (m := 1) rfl (by rwa [Nat.add_comm]))
  exact ⟨t, haccept.append ht, hlead, hval, htaken, hsent⟩

/-- Settles O48: cut after any tick but the last, the request leaves operations that only `CONV` selects; and in `LEAD`
the invariant gives the registers. -/
theorem conversionTakesDigitCountTicks : Obligations.ConversionTakesDigitCountTicks := by
  intro s n hs hv hn hr
  obtain ⟨m, rfl⟩ : ∃ m, n = m + 1 := Nat.exists_eq_add_of_le' (hn ▸ digitCount_pos _)
  obtain ⟨t, ht, hlead, hval, htaken, hsent⟩ := performs_request hs hv hn.symm hr
  have hlen : ([Instr.accept] ++ (List.replicate m Instr.convStep ++ [Instr.convLast])).length = m + 2 := by simp
  have hinv := ht.invariant (invariant_of_idle hs)
  obtain ⟨hsign, hcount, hdigits⟩ := engineDeliversDigits t hinv (.inl hlead)
  obtain ⟨hemit, hcur⟩ := (invariant_iff_of_lead hlead).1 hinv
  obtain ⟨hmag, -⟩ := hemit.sum
  rw [hval] at hsign hcount hdigits
  have hcount' : t.count.toNat = m + 1 := hcount.trans hn.symm
  rw [hcount'] at hcur hdigits
  refine ⟨fun k hk hkm => ?_, ?_, t, ?_, hlead, hval, hsign, hmag, hcount', hcur, hdigits, hsent, htaken⟩
  · obtain ⟨j, rfl⟩ := Nat.exists_eq_add_of_le' hk
    obtain ⟨d, rfl⟩ := Nat.exists_eq_add_of_le (Nat.le_of_succ_le_succ hkm)
    rw [List.replicate_add, List.append_assoc, ← List.append_assoc] at ht
    obtain ⟨u, hu, hrest⟩ := ht.cut
    refine ⟨u, ?_, hrest.state_eq_conv⟩
    simpa using hu.run_eq
  · exact hlen ▸ ht.operations_eq
  · exact hlen ▸ ht.run_eq

end Sys2Proof.Machine
end

/-! ## The next state (O25) and the emission sequencer (O16 to O22, O42, O43) -/

section
namespace Sys2Proof

/-- R100: the state an operation leaves the block in; it does not depend on anything else. -/
def Instr.target : Instr → Phase
  | .reset     => .idle
  | .idleWait  => .idle
  | .accept    => .conv
  | .convStep  => .conv
  | .convLast  => .lead
  | .leadHold  => .lead
  | .leadSend  => .digits
  | .digitHold => .digits
  | .digitSend => .digits
  | .digitLast => .trail
  | .trailHold => .trail
  | .trailSend => .idle

namespace Machine

variable {s t u : State} {i : Instr}

/-- R100: an operation that does not transfer control is selected in its own target state. -/
theorem exec_state (hi : Selected i s) (hu : exec i s = .next u) : u.state = i.target.code := by
  rw [exec_next] at hu
  cases i
  case reset | accept | leadSend | digitLast | trailSend => subst hu; rfl
  case idleWait | leadHold | digitHold | trailHold => obtain ⟨-, hs, -⟩ := hi; subst hu; exact hs
  case convStep | digitSend => obtain ⟨-, hs, -⟩ := hi; obtain ⟨-, rfl⟩ := hu; exact hs
  case convLast => obtain ⟨-, rfl⟩ := hu; rfl

theorem step_state (hi : Selected i s) (ht : step s = .next t) : t.state = i.target.code := by
  obtain ⟨j, u, hj, hu, rfl⟩ := step_next_iff_selected.1 ht
  obtain rfl := hi.unique hj
  exact (nextTick_state u).trans (exec_state hi hu)

/-- Settles O25: the condition of each row selects its operation, which determines the post-state. -/
theorem nextStateTable : Obligations.NextStateTable := by
  intro s t ht
  have row {i : Instr} (hi : Selected i s) : operation s = .ok i ∧ t.state = i.target.code :=
    ⟨operation_eq_ok_iff.2 hi, step_state hi ht⟩
  refine ⟨fun hr => row (i := .reset) hr, fun hr => ⟨?_, ?_, ?_, ?_, ?_, ?_, ?_, ?_, ?_, ?_, ?_⟩⟩
  · exact fun hs hv => row (i := .idleWait) ⟨hr, hs, hv⟩
  · exact fun hs hv => row (i := .accept) ⟨hr, hs, hv⟩
  · exact fun hs hm => row (i := .convStep) ⟨hr, hs, hm⟩
  · exact fun hs hm => row (i := .convLast) ⟨hr, hs, hm⟩
  · exact fun hs ho => row (i := .leadHold) ⟨hr, hs, ho⟩
  · exact fun hs ho => row (i := .leadSend) ⟨hr, hs, ho⟩
  · exact fun hs ho => row (i := .digitHold) ⟨hr, hs, ho⟩
  · exact fun hs ho hc => row (i := .digitSend) ⟨hr, hs, ho, hc⟩
  · exact fun hs ho hc => row (i := .digitLast) ⟨hr, hs, ho, hc⟩
  · exact fun hs ho => row (i := .trailHold) ⟨hr, hs, ho⟩
  · exact fun hs ho => row (i := .trailSend) ⟨hr, hs, ho⟩

/-- R110: only RESET and TRAIL_SEND lead out of the emission states. -/
theorem Emitting.step (he : Emitting s) (hr : (pinsNow s).rst = false) (hi : Selected i s) (hne : i ≠ .trailSend)
    (ht : step s = .next t) : Emitting t := by
  have hstate := step_state hi ht
  cases i
  case reset => exact absurd (hr.symm.trans hi) Bool.false_ne_true
  case idleWait | accept => obtain ⟨-, hs, -⟩ := hi; exact absurd he (not_emitting_of_idle hs)
  case convStep | convLast => obtain ⟨-, hs, -⟩ := hi; exact absurd he (not_emitting_of_conv hs)
  case leadHold => exact .inl hstate
  case leadSend | digitHold | digitSend => exact .inr (.inl hstate)
  case digitLast | trailHold => exact .inr (.inr hstate)
  case trailSend => exact absurd rfl hne

/-- Settles O42: a byte is on offer exactly in the emission states, which CONV_LAST enters and only TRAIL_SEND leaves. -/
theorem noGapsInAFrame : Obligations.NoGapsInAFrame := by
  intro s t hr ht
  rw [outValid_eq_true_iff]
  refine ⟨fun he hne => ?_, fun hlast => .inl (step_state (operation_eq_ok_iff.1 hlast) ht)⟩
  obtain ⟨i, u, hi, -, -⟩ := step_next_iff_selected.1 ht
  refine he.step hr hi (fun h => hne ?_) ht
  exact operation_eq_ok_iff.2 (h ▸ hi)

/-- Settles O43: the tick only ends, and the outputs read neither the script nor the tick number. -/
theorem holdKeepsTheOffer : Obligations.HoldKeepsTheOffer := fun s he hr ho =>
  ⟨step_of_hold he hr ho, outValid_eq_true_iff (s := nextTick s).2 he, rfl⟩

/-! In each of the seven operations of R101 to R107 the state gives the outputs, the operation the transactions
(`Selected.inputTransaction_eq`, `Selected.outputTransaction_eq`), and `exec_next` the next state. -/

/-- Settles O16. -/
theorem leadHoldOperation : Obligations.LeadHoldOperation := by
  intro s hs hr ho
  have hsel : Selected .leadHold s := ⟨hr, hs, ho⟩
  have hexec : exec .leadHold s = .next s := exec_next.2 rfl
  exact ⟨operation_eq_ok_iff.2 hsel, inReady_of_code hs, outValid_of_code hs, outData_of_lead hs,
    hsel.inputTransaction_eq, hsel.outputTransaction_eq, hexec, step_of_selected hsel hexec⟩

/-- Settles O17: the byte on offer is sent and control goes to `DIGITS`. -/
theorem leadSendOperation : Obligations.LeadSendOperation := by
  intro s hs hr ho
  have hsel : Selected .leadSend s := ⟨hr, hs, ho⟩
  have hexec := (exec_next (i := .leadSend) (s := s)).2 rfl
  have hout := outData_of_lead hs
  exact ⟨operation_eq_ok_iff.2 hsel, inReady_of_code hs, outValid_of_code hs, hout, hsel.inputTransaction_eq,
    hsel.outputTransaction_eq.trans hout, _, hexec, step_of_selected hsel hexec, rfl, rfl, rfl⟩

/-- Settles O18: no slot is read to hold, so only the byte on offer asks for a `cursor` below `BUF_CAP`. -/
theorem digitHoldOperation : Obligations.DigitHoldOperation := by
  intro s hs hr ho
  have hsel : Selected .digitHold s := ⟨hr, hs, ho⟩
  have hexec : exec .digitHold s = .next s := exec_next.2 rfl
  exact ⟨operation_eq_ok_iff.2 hsel, inReady_of_code hs, outValid_of_code hs,
    fun hc => outData_of_digits hs (Nat.lt_succ_of_le hc), hsel.inputTransaction_eq, hsel.outputTransaction_eq, hexec,
    step_of_selected hsel hexec⟩

/-- Settles O19: `cursor` is not 0, so its decrement does not wrap. -/
theorem digitSendOperation : Obligations.DigitSendOperation := by
  intro s hs hr ho hpos hc
  have hlt : s.cursor.toNat < Config.bufCap := Nat.lt_succ_of_le hc
  have hne : s.cursor ≠ 0#4 := fun h => absurd hpos (by simp [h])
  have hsel : Selected .digitSend s := ⟨hr, hs, ho, hne⟩
  have hexec := (exec_next (i := .digitSend) (s := s)).2 ⟨hlt, rfl⟩
  have hout := outData_of_digits hs hlt
  exact ⟨operation_eq_ok_iff.2 hsel, inReady_of_code hs, outValid_of_code hs, hout, hsel.inputTransaction_eq,
    hsel.outputTransaction_eq.trans hout, _, hexec, step_of_selected hsel hexec, rfl, index_sub_one_toNat hne, hs, rfl⟩

/-- Settles O20: the digit on offer is that of slot 0. -/
theorem digitLastOperation : Obligations.DigitLastOperation := by
  intro s hs hr ho hc
  have hsel : Selected .digitLast s := ⟨hr, hs, ho, BitVec.eq_of_toNat_eq hc⟩
  have hexec := (exec_next (i := .digitLast) (s := s)).2 rfl
  have hout : outData s = some (digitByte (Memory.read s.buf 0)) := by
    rw [outData_of_digits hs (by rw [hc]; decide), hc]
  exact ⟨operation_eq_ok_iff.2 hsel, inReady_of_code hs, outValid_of_code hs, hout, hsel.inputTransaction_eq,
    hsel.outputTransaction_eq.trans hout, _, hexec, step_of_selected hsel hexec, rfl, hc, rfl, rfl⟩

/-- Settles O21. -/
theorem trailHoldOperation : Obligations.TrailHoldOperation := by
  intro s hs hr ho
  have hsel : Selected .trailHold s := ⟨hr, hs, ho⟩
  have hexec : exec .trailHold s = .next s := exec_next.2 rfl
  exact ⟨operation_eq_ok_iff.2 hsel, inReady_of_code hs, outValid_of_code hs, outData_of_trail hs,
    hsel.inputTransaction_eq, hsel.outputTransaction_eq, hexec, step_of_selected hsel hexec⟩

/-- Settles O22: the trail space is sent and control goes to `IDLE`, which is ready. -/
theorem trailSendOperation : Obligations.TrailSendOperation := by
  intro s hs hr ho
  have hsel : Selected .trailSend s := ⟨hr, hs, ho⟩
  have hexec := (exec_next (i := .trailSend) (s := s)).2 rfl
  have hout := outData_of_trail hs
  exact ⟨operation_eq_ok_iff.2 hsel, inReady_of_code hs, outValid_of_code hs, hout, hsel.inputTransaction_eq,
    hsel.outputTransaction_eq.trans hout, _, hexec, step_of_selected hsel hexec, rfl, rfl,
    inReady_of_code (p := .idle) rfl, rfl⟩

end Machine
end Sys2Proof
end

/-! ## The frame (O57, O58, O59, O60) -/

section
namespace Sys2Proof.Machine

variable {v w : Int} {d i m : Nat} {x y l l' : List Byte}

/-- R120, the lead byte first. -/
theorem frame_eq_cons (v : Int) : frame v = lead v :: ((digitsMsf v.natAbs).map asciiDigit ++ [spaceByte]) := rfl

theorem length_digitsMsf (m : Nat) : (digitsMsf m).length = digitCount m := List.length_reverse

theorem length_frame (v : Int) : (frame v).length = 1 + digitCount v.natAbs + 1 := by
  simp only [frame_eq_cons, List.length_cons, List.length_append, List.length_map, length_digitsMsf, List.length_nil]
  omega

/-- R121: the digit count of a magnitude of 32 bits is at most 10. -/
theorem digitCount_le_ten (hm : m ≤ 2147483648) : digitCount m ≤ 10 := by
  obtain ⟨-, -, -, -, -, hten⟩ := digitCountOfANumber m
  exact hten (by omega)

/-- Settles O57, by the digit counts of O56. -/
theorem frameLength : Obligations.FrameLength := by
  intro v
  refine ⟨length_frame v, digitCount_of_le (Nat.zero_le 9), fun hlow hhigh => ?_⟩
  obtain ⟨-, -, hexact, hpos, -, -⟩ := digitCountOfANumber v.natAbs
  have hten : digitCount v.natAbs ≤ 10 := digitCount_le_ten (by omega)
  rw [length_frame]
  refine ⟨hten, by omega, by omega, fun hm => ?_, fun hm => ?_⟩
  · rw [digitCount_of_le hm]
  · rw [hexact 10 (by decide) hm (by omega)]

theorem asciiDigit_toNat (hd : d ≤ 9) : (asciiDigit d).toNat = 0x30 + d := by
  simp only [asciiDigit, BitVec.toNat_add, BitVec.toNat_ofNat]
  omega

/-- R122 (f): the digit whose byte is `b`. -/
def digitOfByte (b : Byte) : Nat := b.toNat - 0x30

theorem digitOfByte_asciiDigit (hd : d ≤ 9) : digitOfByte (asciiDigit d) = d := by
  rw [digitOfByte, asciiDigit_toNat hd, Nat.add_sub_cancel_left]

theorem le_of_mem_digitsMsf (hd : d ∈ digitsMsf m) : d ≤ 9 := le_of_mem_digitsLsf (List.mem_reverse.1 hd)

/-- R122 (b): the byte of a digit is a digit byte, and so no space. -/
theorem asciiDigit_bounds (hd : d ≤ 9) :
    0x30 ≤ (asciiDigit d).toNat ∧ (asciiDigit d).toNat ≤ 0x39 ∧ asciiDigit d ≠ spaceByte := by
  have hbyte := asciiDigit_toNat hd
  refine ⟨by omega, by omega, fun h => ?_⟩
  rw [h] at hbyte
  exact absurd hbyte (by simp only [spaceByte, BitVec.toNat_ofNat]; omega)

theorem spaceByte_notMem_digits (m : Nat) : spaceByte ∉ (digitsMsf m).map asciiDigit := by
  intro h
  obtain ⟨d, hd, hspace⟩ := List.mem_map.1 h
  obtain ⟨-, -, hne⟩ := asciiDigit_bounds (le_of_mem_digitsMsf hd)
  exact hne hspace

/-- R122 (f): the digit bytes give the digits back. -/
theorem map_digitOfByte (m : Nat) : ((digitsMsf m).map asciiDigit).map digitOfByte = digitsMsf m := by
  rw [List.map_map]
  exact (List.map_congr_left fun d hd => digitOfByte_asciiDigit (le_of_mem_digitsMsf hd)).trans (List.map_id _)

theorem digitBytes_inj {n : Nat} (h : (digitsMsf m).map asciiDigit = (digitsMsf n).map asciiDigit) : m = n := by
  have hdigits : digitsMsf m = digitsMsf n := by rw [← map_digitOfByte m, h, map_digitOfByte]
  rw [← digitsValue_digitsLsf m, List.reverse_injective hdigits, digitsValue_digitsLsf]

/-- What precedes the first `a` of a list, and what follows it, is determined by the list: else the longer of two such
beginnings would hold an `a`. -/
theorem append_cons_inj_of_notMem_left {a : Byte} (h : l ++ a :: x = l' ++ a :: y) (hl : a ∉ l) (hl' : a ∉ l') :
    l = l' ∧ x = y := by
  obtain ⟨c, rfl, hc⟩ | ⟨c, rfl, hc⟩ := List.append_eq_append_iff.1 h
  · cases c <;> simp_all
  · cases c <;> simp_all

/-- R120: the lead byte tells the sign. -/
theorem lead_eq_iff : lead v = lead w ↔ (v < 0 ↔ w < 0) := by
  unfold lead
  split <;> split <;> simp [minusByte, spaceByte, *]

/-- R123: whatever follows a frame, the frame ends at the first space after its lead byte, and its digits and its lead
byte give the value. -/
theorem frame_append_inj (h : frame v ++ x = frame w ++ y) : v = w ∧ x = y := by
  simp only [frame_eq_cons, List.cons_append, List.append_assoc, List.nil_append] at h
  obtain ⟨hlead, hrest⟩ := List.cons.inj h
  obtain ⟨hdigits, hxy⟩ :=
    append_cons_inj_of_notMem_left hrest (spaceByte_notMem_digits _) (spaceByte_notMem_digits _)
  have habs := digitBytes_inj hdigits
  have hsign := lead_eq_iff.1 hlead
  exact ⟨by omega, hxy⟩

theorem frame_injective : Function.Injective frame := fun _ _ h => (frame_append_inj (congrArg (· ++ []) h)).1

/-- R122 (b): the bytes between the lead byte and the last are those of the digits. -/
theorem frame_getElem?_succ (hi : i < digitCount v.natAbs) :
    ∃ d, (digitsMsf v.natAbs)[i]? = some d ∧ (frame v)[i + 1]? = some (asciiDigit d) := by
  rw [← length_digitsMsf] at hi
  refine ⟨_, List.getElem?_eq_getElem hi, ?_⟩
  rw [frame_eq_cons, List.getElem?_cons_succ, List.getElem?_append_left (by simpa using hi), List.getElem?_map,
    List.getElem?_eq_getElem hi]
  rfl

/-- R122 (c): no leading zero, but for the number 0. -/
theorem digitsMsf_getElem?_zero_ne (hm : 0 < m) : (digitsMsf m)[0]? ≠ some 0 := by
  rw [← List.head?_eq_getElem?, digitsMsf, List.head?_reverse]
  exact getLast?_digitsLsf_ne_zero hm

/-- Settles O58, clause by clause: the lead byte, the digits, no leading zero, the trail space, and O59's cutting for the
last. -/
theorem frameShape : Obligations.FrameShape := by
  intro v
  refine ⟨?_, fun i hi hn => ?_, fun hn => ?_, ?_, fun w h => frame_injective h⟩
  · by_cases hv : v < 0
    · exact .inr (by rw [frame_eq_cons, lead, if_pos hv]; rfl)
    · exact .inl (by rw [frame_eq_cons, lead, if_neg hv]; rfl)
  · obtain ⟨j, rfl⟩ := Nat.exists_eq_add_of_le' hi
    obtain ⟨d, hd, hbyte⟩ := frame_getElem?_succ (Nat.lt_of_succ_le hn)
    exact ⟨_, hbyte, asciiDigit_bounds (le_of_mem_digitsMsf (List.mem_of_getElem? hd))⟩
  · obtain ⟨d, hd, hbyte⟩ := frame_getElem?_succ (digitCount_pos v.natAbs)
    have hpos : 0 < v.natAbs := Nat.pos_of_ne_zero fun h => hn (by rw [h]; exact digitCount_of_le (Nat.zero_le 9))
    rw [hbyte]
    intro hzero
    have hback := digitOfByte_asciiDigit (le_of_mem_digitsMsf (List.mem_of_getElem? hd))
    obtain rfl : 0 = d := by rwa [Option.some.inj hzero] at hback
    exact digitsMsf_getElem?_zero_ne hpos hd
  · rw [frame_eq_cons, List.getElem?_cons_succ,
      List.getElem?_append_right (by rw [List.length_map, length_digitsMsf]), List.length_map, length_digitsMsf,
      Nat.sub_self]
    rfl

theorem frame_ne_nil (v : Int) : frame v ≠ [] := List.cons_ne_nil _ _

/-- Settles O59: frames are cut off one after the other. -/
theorem frameStreamSelfDelimiting : Obligations.FrameStreamSelfDelimiting := by
  refine ⟨fun vs => ?_, fun v w x y => frame_append_inj⟩
  induction vs with
  | nil =>
    intro ws h
    cases ws with
    | nil => rfl
    | cons w ws => exact absurd h.symm (List.append_ne_nil_of_left_ne_nil (frame_ne_nil w) _)
  | cons v vs ih =>
    intro ws h
    cases ws with
    | nil => exact absurd h (List.append_ne_nil_of_left_ne_nil (frame_ne_nil v) _)
    | cons w ws =>
      obtain ⟨hvw, hrest⟩ := frame_append_inj h
      rw [hvw, ih ws hrest]

/-- Settles O60: each of the nine frames is computed. -/
theorem sourceFrames : Obligations.SourceFrames := by
  refine ⟨?_, ?_, ?_, ?_, ?_, ?_, ?_, ?_, ?_⟩ <;> decide

end Sys2Proof.Machine
end

/-! ## The bytes still owed to the request in flight, and the balance of a run (O45, O46) -/

section
namespace Sys2Proof.Machine

variable {s t u : State} {i : Instr} {n : Nat}

/-- R124: the bytes of the current request's frame that are still to be sent. -/
def pending (s : State) : List Byte :=
  match phase? s with
  | some .idle   => []
  | some .conv   => frame (s32 s.val)
  | some .lead   => frame (s32 s.val)
  | some .digits => (bufDigits s.buf (s.cursor.toNat + 1)).reverse.map asciiDigit ++ [spaceByte]
  | some .trail  => [spaceByte]
  | none         => []

theorem pending_of_idle (h : s.state = Phase.idle.code) : pending s = [] := by
  simp [pending, phase?_of_code h]

theorem pending_of_conv (h : s.state = Phase.conv.code) : pending s = frame (s32 s.val) := by
  simp [pending, phase?_of_code h]

theorem pending_of_lead (h : s.state = Phase.lead.code) : pending s = frame (s32 s.val) := by
  simp [pending, phase?_of_code h]

/-- In `DIGITS` the byte on offer comes first, then the digits of the slots below `cursor`. -/
theorem pending_of_digits (h : s.state = Phase.digits.code) : pending s =
    digitByte (Memory.read s.buf s.cursor.toNat) ::
      ((bufDigits s.buf s.cursor.toNat).reverse.map asciiDigit ++ [spaceByte]) := by
  simp [pending, phase?_of_code h, bufDigits_succ, digitByte_eq_asciiDigit]

theorem pending_of_trail (h : s.state = Phase.trail.code) : pending s = [spaceByte] := by
  simp [pending, phase?_of_code h]

/-- Neither the script nor the tick number bears on what is owed. -/
theorem pending_nextTick (s : State) : pending (nextTick s) = pending s := rfl

/-- R32: the frame as `LEAD` holds it, `cursor` being at the most significant digit. -/
theorem pending_of_lead_eq_cons (hinv : Invariant s) (h : s.state = Phase.lead.code) : pending s =
    leadByte s.sign :: ((bufDigits s.buf (s.cursor.toNat + 1)).reverse.map asciiDigit ++ [spaceByte]) := by
  obtain ⟨hemit, hcur⟩ := (invariant_iff_of_lead h).1 hinv
  obtain ⟨hpos, -⟩ := hemit.filled
  rw [pending_of_lead h, hemit.frame_eq, show s.cursor.toNat + 1 = s.count.toNat by omega]
  rfl

/-- R56: under the invariant the state is one of the five. -/
theorem Invariant.exists_phase (h : Invariant s) : ∃ p : Phase, s.state = p.code := by
  cases hp : phase? s with
  | none => simp [Invariant, hp] at h
  | some p => exact ⟨p, (phase?_eq p).1 hp⟩

/-- R26: in an emission state the byte on offer is the next byte owed. -/
theorem Emitting.pending_eq_cons (he : Emitting s) (hinv : Invariant s) :
    ∃ b l, outData s = some b ∧ pending s = b :: l := by
  obtain hs | hs | hs := he
  · exact ⟨_, _, outData_of_lead hs, pending_of_lead_eq_cons hinv hs⟩
  · have ⟨hlt, hle⟩ := cursor_lt_of_invariant hinv hs
    exact ⟨_, _, outData_of_digits hs (hlt.trans_le hle), pending_of_digits hs⟩
  · exact ⟨_, _, outData_of_trail hs, pending_of_trail hs⟩

/-- R127, R128: nothing is owed exactly in `IDLE`. -/
theorem pending_eq_nil_iff (hinv : Invariant s) : pending s = [] ↔ s.state = Phase.idle.code := by
  refine ⟨fun h => ?_, pending_of_idle⟩
  obtain ⟨p, hp⟩ := hinv.exists_phase
  have hnot : ¬ Emitting s := fun he => by
    obtain ⟨b, l, -, hcons⟩ := he.pending_eq_cons hinv
    simp [hcons] at h
  cases p
  case idle => exact hp
  case conv => exact absurd ((pending_of_conv hp).symm.trans h) (frame_ne_nil _)
  case lead => exact absurd (.inl hp) hnot
  case digits => exact absurd (.inr (.inl hp)) hnot
  case trail => exact absurd (.inr (.inr hp)) hnot

/-- R124, for one operation: what it sends and what is owed after it are what was owed and the frame of what it takes. -/
theorem exec_balance (hinv : Invariant s) (hr : (pinsNow s).rst = false) (hi : Selected i s) (hu : exec i s = .next u) :
    (outputTransaction s).toList ++ pending u = pending s ++ frames ((inputTransaction s).toList.map s32) := by
  have hstate := exec_state hi hu
  rw [hi.inputTransaction_eq, hi.outputTransaction_eq]
  rw [exec_next] at hu
  cases i
  case reset => exact absurd (hr.symm.trans hi) Bool.false_ne_true
  case idleWait | leadHold | digitHold | trailHold => subst hu; simp [sendOperations, frames]
  case accept =>
    obtain ⟨-, hs, -⟩ := hi
    rw [pending_of_idle hs, pending_of_conv hstate]
    subst hu
    simp [sendOperations, frames]
  case convStep =>
    obtain ⟨-, hs, -⟩ := hi
    rw [pending_of_conv hs, pending_of_conv hstate]
    obtain ⟨-, rfl⟩ := hu
    simp [sendOperations, frames]
  case convLast =>
    obtain ⟨-, hs, -⟩ := hi
    rw [pending_of_conv hs, pending_of_lead hstate]
    obtain ⟨-, rfl⟩ := hu
    simp [sendOperations, frames]
  case leadSend =>
    obtain ⟨-, hs, -⟩ := hi
    rw [pending_of_lead_eq_cons hinv hs, pending_of_digits hstate]
    subst hu
    simp [sendOperations, frames, outData_of_lead hs, bufDigits_succ, digitByte_eq_asciiDigit]
  case digitSend =>
    obtain ⟨-, hs, -, hne⟩ := hi
    obtain ⟨k, hk⟩ : ∃ k, s.cursor.toNat = k + 1 := Nat.exists_eq_succ_of_ne_zero fun h => hne (BitVec.eq_of_toNat_eq h)
    rw [pending_of_digits hs, pending_of_digits hstate]
    obtain ⟨hlt, rfl⟩ := hu
    simp [sendOperations, frames, outData_of_digits hs hlt, index_sub_one_toNat hne, hk, bufDigits_succ,
      digitByte_eq_asciiDigit]
  case digitLast =>
    obtain ⟨-, hs, -, hc⟩ := hi
    have hlt : s.cursor.toNat < Config.bufCap := by rw [hc]; decide
    rw [pending_of_digits hs, pending_of_trail hstate]
    simp [sendOperations, frames, outData_of_digits hs hlt, hc, bufDigits]
  case trailSend =>
    obtain ⟨-, hs, -⟩ := hi
    rw [pending_of_trail hs, pending_of_idle hstate]
    simp [sendOperations, frames, outData_of_trail hs]

theorem step_balance (hinv : Invariant s) (hr : (pinsNow s).rst = false) (ht : step s = .next t) :
    (outputTransaction s).toList ++ pending t = pending s ++ frames ((inputTransaction s).toList.map s32) := by
  obtain ⟨i, u, hi, hu, rfl⟩ := step_next_iff_selected.1 ht
  rw [pending_nextTick]
  exact exec_balance hinv hr hi hu

theorem frames_append (vs ws : List Int) : frames (vs ++ ws) = frames vs ++ frames ws := by
  induction vs with
  | nil => rfl
  | cons v vs ih => rw [List.cons_append, frames, ih, frames, List.append_assoc]

/-- R9: each tick brings the pins one tick nearer. -/
theorem pinsAt_of_step (ht : step s = .next t) (k : Nat) : pinsAt t k = pinsAt s (k + 1) := by
  obtain ⟨i, u, hi, hu, rfl⟩ := step_next_iff_selected.1 ht
  rw [(Performs.single hi hu).pinsAt_eq (m := 1) rfl, Nat.add_comm]

theorem resetFree_of_step (hr : ResetFree (n + 1) s) (ht : step s = .next t) : ResetFree n t := by
  intro k hk
  rw [pinsAt_of_step ht]
  exact hr _ (Nat.succ_lt_succ hk)

/-! The observation of a run grows tick by tick (O29). -/

theorem taken_prefix_of_step (h : s.taken <+: t.taken) (hu : step t = .next u) : s.taken <+: u.taken := by
  obtain ⟨htaken, -⟩ := tickRecordsItsTransactions t u hu
  exact h.trans ⟨_, htaken.symm⟩

theorem sent_prefix_of_step (h : s.sent <+: t.sent) (hu : step t = .next u) : s.sent <+: u.sent := by
  obtain ⟨-, hsent⟩ := tickRecordsItsTransactions t u hu
  exact h.trans ⟨_, hsent.symm⟩

theorem requests_of_step (h : s.taken <+: t.taken) (hu : step t = .next u) :
    requests s u = requests s t ++ (inputTransaction t).toList.map s32 := by
  obtain ⟨htaken, -⟩ := tickRecordsItsTransactions t u hu
  obtain ⟨l, hl⟩ := h
  rw [requests_of_append hl.symm, requests_of_append (by rw [htaken, ← hl, List.append_assoc])]
  simp [takenValues, Function.comp_def]

theorem bytesSent_of_step (h : s.sent <+: t.sent) (hu : step t = .next u) :
    bytesSent s u = bytesSent s t ++ (outputTransaction t).toList := by
  obtain ⟨-, hsent⟩ := tickRecordsItsTransactions t u hu
  obtain ⟨l, hl⟩ := h
  rw [bytesSent_of_append hl.symm, bytesSent_of_append (by rw [hsent, ← hl, List.append_assoc])]
  simp [sentBytes, Function.comp_def]

/-- R124, R127: what holds between a post-reset state `s` and the states `t` of its reset-free runs. -/
structure Accounted (s t : State) : Prop where
  invariant : Invariant t
  taken : s.taken <+: t.taken
  sent : s.sent <+: t.sent
  /-- The bytes sent and the bytes owed make up the frames of the values taken. -/
  balance : bytesSent s t ++ pending t = frames (requests s t)
  /-- Every request but the last is wholly sent. -/
  earlier : frames (requests s t).dropLast <+: bytesSent s t

theorem accounted_refl (hs : PostReset s) : Accounted s s where
  invariant := invariant_of_idle hs
  taken := List.prefix_rfl
  sent := List.prefix_rfl
  balance := by rw [pending_of_idle hs, requests_self, bytesSent_self]; rfl
  earlier := by rw [requests_self, bytesSent_self]; exact List.prefix_rfl

namespace Accounted

/-- A value is taken only when nothing is owed, so the requests before it are wholly sent. -/
theorem after_step (h : Accounted s t) (hr : (pinsNow t).rst = false) (hu : step t = .next u) : Accounted s u where
  invariant := stepKeepsInvariant t u h.invariant hu
  taken := taken_prefix_of_step h.taken hu
  sent := sent_prefix_of_step h.sent hu
  balance := by
    rw [requests_of_step h.taken hu, bytesSent_of_step h.sent hu, frames_append, ← h.balance, List.append_assoc,
      step_balance h.invariant hr hu, List.append_assoc]
  earlier := by
    rw [requests_of_step h.taken hu, bytesSent_of_step h.sent hu]
    cases hw : inputTransaction t with
    | none => simpa using h.earlier.trans (List.prefix_append _ _)
    | some w =>
      obtain ⟨⟨-, hidle, -⟩, -⟩ := inputTransaction_eq_some_iff_selected.1 hw
      have hall := h.balance
      rw [pending_of_idle hidle, List.append_nil] at hall
      simp [hall]

/-- R124: a run adds up, tick by tick. -/
theorem after_run (h : Accounted s t) (hr : ResetFree n t) (hu : run n t = .next u) : Accounted s u := by
  induction n generalizing t with
  | zero =>
    obtain rfl : t = u := by simpa using hu
    exact h
  | succ n ih =>
    obtain ⟨v, hv, hrest⟩ := run_succ.1 hu
    exact ih (h.after_step (hr 0 (Nat.succ_pos n)) hv) (resetFree_of_step hr hv) hrest

theorem of_run (hs : PostReset s) (hr : ResetFree n s) (ht : run n s = .next t) : Accounted s t :=
  (accounted_refl hs).after_run hr ht

theorem bytesSent_prefix (h : Accounted s t) : bytesSent s t <+: frames (requests s t) := ⟨_, h.balance⟩

/-- R124, R128: the frames are wholly sent exactly in `IDLE`. -/
theorem bytesSent_eq_iff (h : Accounted s t) : bytesSent s t = frames (requests s t) ↔ t.state = Phase.idle.code := by
  rw [← h.balance, List.self_eq_append_right, pending_eq_nil_iff h.invariant]

end Accounted

/-- Settles O45: what is owed is the rest of the frames, and nothing is owed when the block is ready. -/
theorem outputIsPrefixOfFrames : Obligations.OutputIsPrefixOfFrames := by
  intro s t n hs hr ht
  have h := Accounted.of_run hs hr ht
  obtain ⟨a, ha⟩ := h.taken
  obtain ⟨b, hb⟩ := h.sent
  have hbytes := bytesSent_of_append hb.symm
  have hrequests := requests_of_append ha.symm
  have hlast : takenValues a.dropLast = (takenValues a).dropLast := List.map_dropLast
  refine ⟨a, b, ha.symm, hb.symm, ?_, fun hidle => ?_, ?_⟩
  · rw [← hbytes, ← hrequests]
    exact h.bytesSent_prefix
  · rw [← hbytes, ← hrequests]
    exact h.bytesSent_eq_iff.2 (inReady_eq_true_iff.1 hidle)
  · rw [hlast, ← hbytes, ← hrequests]
    exact h.earlier

/-- R126: both runs send the beginning of the same frames. -/
theorem Accounted.bytesSent_comparable {s' t' : State} (h : Accounted s t) (h' : Accounted s' t')
    (hreq : requests s t = requests s' t') :
    bytesSent s t <+: bytesSent s' t' ∨ bytesSent s' t' <+: bytesSent s t :=
  List.prefix_or_prefix_of_prefix h.bytesSent_prefix (hreq ▸ h'.bytesSent_prefix)

/-- R126: a byte that is not taken stays on offer. -/
theorem offer_kept_of_step (hr : (pinsNow s).rst = false) (hv : outValid s = some true)
    (ho : (pinsNow s).outReady = false) (ht : step s = .next t) : outValid t = some true ∧ outData t = outData s := by
  obtain ⟨hstep, hvalid, hdata⟩ := holdKeepsTheOffer s (outValid_eq_true_iff.1 hv) hr ho
  obtain rfl : nextTick s = t := by simpa [hstep] using ht
  exact ⟨hvalid, hdata⟩

/-- Settles O46: both runs send the beginning of the same frames, and a held tick keeps the offer. -/
theorem backpressureOnlyDelays : Obligations.BackpressureOnlyDelays := by
  refine ⟨fun s s' t t' n n' a a' b b' hs hs' hr hr' ht ht' ha ha' hb hb' hvalues => ?_,
    fun s t hr hv ho ht => offer_kept_of_step hr hv ho ht⟩
  rw [← requests_of_append ha, ← requests_of_append ha'] at hvalues
  rw [← bytesSent_of_append hb, ← bytesSent_of_append hb']
  exact (Accounted.of_run hs hr ht).bytesSent_comparable (.of_run hs' hr' ht') hvalues

end Sys2Proof.Machine
end

/-! ## Progress (O52) -/

section
namespace Sys2Proof.Machine

variable {s t u : State} {i : Instr} {a m n : Nat}

/-- R31, R32: under the invariant the operation a tick selects completes: its slot exists. -/
theorem exec_completes (hinv : Invariant s) (hi : Selected i s) : ∃ u, exec i s = .next u := by
  simp only [exec_next]
  cases i
  case convStep | convLast =>
    obtain ⟨-, hs, -⟩ := hi
    exact ⟨_, count_lt_of_invariant hinv hs, rfl⟩
  case digitSend =>
    obtain ⟨-, hs, -⟩ := hi
    have ⟨hlt, hle⟩ := cursor_lt_of_invariant hinv hs
    exact ⟨_, hlt.trans_le hle, rfl⟩
  all_goals exact ⟨_, rfl⟩

/-- R140: under the invariant no tick is refused. -/
theorem step_completes (hinv : Invariant s) : ∃ t, step s = .next t := by
  obtain ⟨i, hi⟩ : ∃ i, operation s = .ok i := by
    cases hr : (pinsNow s).rst with
    | true => exact ⟨_, operation_of_rst hr⟩
    | false =>
      obtain ⟨p, hp⟩ := hinv.exists_phase
      exact ⟨_, operation_of_code hr hp⟩
  obtain ⟨u, hu⟩ := exec_completes hinv (operation_eq_ok_iff.1 hi)
  exact ⟨_, step_of_exec hi hu⟩

theorem run_completes (hinv : Invariant s) (n : Nat) : ∃ t, run n s = .next t := by
  induction n generalizing s with
  | zero => exact ⟨s, rfl⟩
  | succ n ih =>
    obtain ⟨u, hu⟩ := step_completes hinv
    obtain ⟨t, ht⟩ := ih (stepKeepsInvariant s u hinv hu)
    exact ⟨t, run_succ.2 ⟨u, hu, ht⟩⟩

/-- R93: a bound on the ticks left in `CONV`; `count` is at most 9 there and goes up on each. -/
def convTicks (s : State) : Nat := if s.state = Phase.conv.code then 10 - s.count.toNat else 0

theorem convTicks_of_conv (h : s.state = Phase.conv.code) : convTicks s = 10 - s.count.toNat := if_pos h

theorem convTicks_of_ne_conv (h : s.state ≠ Phase.conv.code) : convTicks s = 0 := if_neg h

theorem convTicks_le (s : State) : convTicks s ≤ 10 := by
  unfold convTicks
  split <;> omega

/-- R121: a frame is at most twelve bytes long. -/
theorem length_frame_le (w : Word) : (frame (s32 w)).length ≤ 12 := by
  have hten : digitCount (s32 w).natAbs ≤ 10 := digitCount_le_ten (magnitude_le w)
  rw [length_frame]
  omega

theorem length_pending_le (hinv : Invariant s) : (pending s).length ≤ 12 := by
  obtain ⟨p, hp⟩ := hinv.exists_phase
  cases p
  case idle => simp [pending_of_idle hp]
  case conv => rw [pending_of_conv hp]; exact length_frame_le _
  case lead => rw [pending_of_lead hp]; exact length_frame_le _
  case digits =>
    have ⟨hlt, hle⟩ := cursor_lt_of_invariant hinv hp
    simp only [Config.bufCap] at hle
    simp only [pending_of_digits hp, List.length_cons, List.length_append, List.length_map, List.length_reverse,
      length_bufDigits, List.length_nil]
    omega
  case trail => simp [pending_of_trail hp]

/-- R93: a tick of a conversion is one tick less to go, and no other tick of a request in flight leads to `CONV`. -/
theorem convTicks_of_step (hr : (pinsNow s).rst = false) (hs : s.state ≠ Phase.idle.code) (ht : step s = .next t) :
    convTicks t ≤ convTicks s - 1 := by
  obtain ⟨i, u, hi, hu, rfl⟩ := step_next_iff_selected.1 ht
  have hstate := step_state hi ht
  cases i
  case reset => exact absurd (hr.symm.trans hi) Bool.false_ne_true
  case accept => obtain ⟨-, hidle, -⟩ := hi; exact absurd hidle hs
  case convStep =>
    obtain ⟨-, hconv, -⟩ := hi
    rw [convTicks_of_conv hstate, convTicks_of_conv hconv]
    obtain ⟨hlt, rfl⟩ := exec_next.1 hu
    simp only [nextTick_count, index_add_one_toNat hlt]
    omega
  all_goals exact (convTicks_of_ne_conv (hstate.trans_ne (by decide))).trans_le (Nat.zero_le _)

theorem emitting_of_convTicks_eq_zero (hinv : Invariant s) (hs : s.state ≠ Phase.idle.code) (hc : convTicks s = 0) :
    Emitting s := by
  obtain ⟨p, hp⟩ := hinv.exists_phase
  cases p
  case idle => exact absurd hp hs
  case conv =>
    have hlt := count_lt_of_invariant hinv hp
    rw [convTicks_of_conv hp] at hc
    simp only [Config.bufCap] at hlt
    omega
  case lead => exact .inl hp
  case digits => exact .inr (.inl hp)
  case trail => exact .inr (.inr hp)

/-- R127: nothing is taken while a request is in flight. -/
theorem inputTransaction_of_ne_idle (hs : s.state ≠ Phase.idle.code) : inputTransaction s = none :=
  if_neg fun ⟨_, _, hready⟩ => hs (inReady_eq_true_iff.1 hready)

/-- R130: a request in flight owes no more after a tick than before it, and one byte less if the conversion is over and
the consumer is ready. -/
theorem length_pending_of_step (hinv : Invariant s) (hr : (pinsNow s).rst = false) (hs : s.state ≠ Phase.idle.code)
    (ht : step s = .next t) :
    (if convTicks s = 0 ∧ (pinsNow s).outReady = true then 1 else 0) + (pending t).length ≤ (pending s).length := by
  have hbalance := congrArg List.length (step_balance hinv hr ht)
  simp only [inputTransaction_of_ne_idle hs, Option.toList_none, List.map_nil, frames, List.append_nil,
    List.length_append] at hbalance
  split
  · next h =>
    have ⟨hc, ho⟩ := h
    have he := emitting_of_convTicks_eq_zero hinv hs hc
    obtain ⟨b, l, hb, -⟩ := he.pending_eq_cons hinv
    have hsent : outputTransaction s = some b := by
      rw [outputTransaction, if_pos ⟨hr, outValid_eq_true_iff.2 he, ho⟩, hb]
    simp only [hsent, Option.toList_some, List.length_singleton] at hbalance
    omega
  · omega

/-- The ready ticks from tick `a` on, by the first tick. -/
theorem readyTicks_succ (ht : step s = .next t) (a m : Nat) : readyTicks a (m + 1) s =
    (if a = 0 ∧ (pinsNow s).outReady = true then 1 else 0) + readyTicks (a - 1) m t := by
  simp only [readyTicks, ← List.countP_eq_length_filter, List.range_succ_eq_map, List.countP_cons, List.countP_map,
    pinsNow, pinsAt_of_step ht]
  rw [Nat.add_comm]
  congr 1
  · cases a <;> simp
  · refine List.countP_congr fun k _ => ?_
    simp

theorem readyTicks_antitone (m : Nat) (s : State) {a b : Nat} (h : a ≤ b) : readyTicks b m s ≤ readyTicks a m s := by
  simp only [readyTicks, ← List.countP_eq_length_filter]
  refine List.countP_mono_left fun k _ hk => ?_
  simp only [Bool.and_eq_true, decide_eq_true_eq] at hk ⊢
  exact ⟨h.trans hk.1, hk.2⟩

/-- R130: once the conversion is over each ready tick sends a byte, so as many ready ticks as bytes are owed complete the
request. -/
theorem reaches_idle (hinv : Invariant s) (hr : ResetFree m s) (h : (pending s).length ≤ readyTicks (convTicks s) m s) :
    ∃ k t, k ≤ m ∧ run k s = .next t ∧ t.state = Phase.idle.code := by
  induction m generalizing s with
  | zero =>
    have hnone : pending s = [] := List.eq_nil_of_length_eq_zero (Nat.le_zero.1 h)
    exact ⟨0, s, le_rfl, rfl, (pending_eq_nil_iff hinv).1 hnone⟩
  | succ m ih =>
    by_cases hs : s.state = Phase.idle.code
    · exact ⟨0, s, Nat.zero_le _, rfl, hs⟩
    · obtain ⟨u, hu⟩ := step_completes hinv
      have hr0 := hr 0 (Nat.succ_pos m)
      have howed := length_pending_of_step hinv hr0 hs hu
      have hticks := readyTicks_antitone m u (convTicks_of_step hr0 hs hu)
      rw [readyTicks_succ hu] at h
      obtain ⟨k, t, hk, hrun, hidle⟩ := ih (stepKeepsInvariant s u hinv hu) (resetFree_of_step hr hu) (by omega)
      exact ⟨k + 1, t, Nat.succ_le_succ hk, run_succ.2 ⟨u, hu, hrun⟩, hidle⟩

/-- Settles O52: at most ten ticks of conversion, and at most twelve bytes owed. -/
theorem readyConsumerCompletesFrame : Obligations.ReadyConsumerCompletesFrame := by
  intro s m hinv hr h
  refine reaches_idle hinv hr ?_
  calc (pending s).length ≤ 12 := length_pending_le hinv
    _ ≤ readyTicks 10 m s := h
    _ ≤ readyTicks (convTicks s) m s := readyTicks_antitone m s (convTicks_le s)

end Sys2Proof.Machine
end

/-! ## The reference machine meets the contract (O41, O51, O53) -/

section
namespace Sys2Proof.Machine

variable {s t u : State} {m n : Nat}

/-- Settles O41: the operation determines the state, and only IDLE_WAIT and TRAIL_SEND lead to `IDLE`. -/
theorem readyOnlyWhenDrained : Obligations.ReadyOnlyWhenDrained := by
  intro s t hr ht
  obtain ⟨i, u, hi, -, -⟩ := step_next_iff_selected.1 ht
  have hready := inReady_of_code (step_state hi ht)
  refine ⟨?_, fun h => ?_, fun h => ?_⟩
  · rw [hready, operation_eq_ok_iff.2 hi]
    cases i
    case reset => exact absurd (hr.symm.trans hi) Bool.false_ne_true
    all_goals simp [Instr.target]
  · have hidle := inReady_eq_true_iff.1 h
    exact ⟨outValid_of_code hidle, outData_of_idle hidle⟩
  · simpa [hready] using h

/-- Settles O51: `PRINT v` leaves a post-reset state and the rest of the script, so it is performed again. -/
theorem sameValueTwiceTwoIdenticalFrames : Obligations.SameValueTwiceTwoIdenticalFrames := by
  intro s v n other l hs hlow hhigh hn hscript
  obtain ⟨-, u, hu, hidle, hrest, hsent⟩ := printOperationSequence s v n other _ hs hlow hhigh hn hscript
  obtain ⟨-, t, ht, hidle', -, hsent'⟩ := printOperationSequence u v n other l hidle hlow hhigh hn hrest
  refine ⟨t, run_add.2 ⟨u, hu, ht⟩, hidle', ?_⟩
  rw [hsent', hsent, List.append_assoc]

theorem ContractRun.accounted (h : ContractRun n s t) : Accounted s t := by
  obtain ⟨hs, hr, ht⟩ := h
  exact .of_run hs hr ht

/-- R130: `out_valid` is 1 once the conversion is over, which takes ten ticks at most after the input transaction's. -/
theorem offers_within_eleven {w : Word} (hw : inputTransaction t = some w) (hr : ResetFree 11 t) :
    ∃ k u, k ≤ 11 ∧ run k t = .next u ∧ outValid u = some true := by
  obtain ⟨⟨-, hs, hv⟩, -⟩ := inputTransaction_eq_some_iff_selected.1 hw
  obtain ⟨d, hd⟩ := Nat.exists_eq_add_of_le' (digitCount_pos (magnitude (pinsNow t).inData))
  have hten := digitCount_le_ten (magnitude_le (pinsNow t).inData)
  obtain ⟨u, hu, hlead, -⟩ := performs_request hs hv hd fun k hk => hr k (by omega)
  refine ⟨_, u, ?_, hu.run_eq, outValid_of_code hlead⟩
  simp only [List.length_append, List.length_replicate, List.length_singleton]
  omega

/-- R175: a consumer that is not ready stalls the block: only the ticks go by. -/
theorem run_of_hold (he : Emitting s) (hr : ResetFree n s) (ho : ∀ k, k < n → (pinsAt s k).outReady = false) :
    run n s = .next { s with tick := s.tick + n, script := s.script.drop n } := by
  induction n generalizing s with
  | zero => rfl
  | succ n ih =>
    have hstep := step_of_hold he (hr 0 (Nat.succ_pos n)) (ho 0 (Nat.succ_pos n))
    refine run_succ.2 ⟨_, hstep, (ih (s := nextTick s) he (resetFree_of_step hr hstep) fun k hk => ?_).trans ?_⟩
    · rw [pinsAt_of_step hstep]
      exact ho _ (Nat.succ_lt_succ hk)
    · simp only [nextTick, List.drop_tail, Nat.add_assoc, Nat.add_comm 1 n]

theorem Accounted.bytesSent_of_inReady (h : Accounted s t) (hready : inReady t = some true) :
    bytesSent s t = frames (requests s t) := h.bytesSent_eq_iff.2 (inReady_eq_true_iff.1 hready)

/-- R127: until the frames are wholly sent the block is not ready, and takes nothing. -/
theorem Accounted.busy (h : Accounted s t) (hne : bytesSent s t ≠ frames (requests s t)) :
    inReady t = some false ∧ inputTransaction t = none := by
  have hs := mt h.bytesSent_eq_iff.2 hne
  obtain ⟨p, hp⟩ := h.invariant.exists_phase
  have hpidle : p ≠ .idle := fun hidle => hs (hidle ▸ hp)
  exact ⟨by rw [inReady_of_code hp, decide_eq_false hpidle], inputTransaction_of_ne_idle hs⟩

/-- R128: a byte on offer is the next byte of the frames. -/
theorem Accounted.offer (h : Accounted s t) (hv : outValid t = some true) :
    ∃ b, outData t = some b ∧ bytesSent s t ++ [b] <+: frames (requests s t) := by
  obtain ⟨b, l, hb, hcons⟩ := (outValid_eq_true_iff.1 hv).pending_eq_cons h.invariant
  exact ⟨b, hb, l, by rw [← h.balance, hcons, List.append_assoc, List.singleton_append]⟩

/-- R129: a word offered to a ready block is taken as its value. -/
theorem Accounted.takes (h : Accounted s t) (hready : inReady t = some true) (hr : (pinsNow t).rst = false)
    (hv : (pinsNow t).inValid = true) : inputTransaction t = some (pinsNow t).inData ∧
      ∃ u, step t = .next u ∧ requests s u = requests s t ++ [s32 (pinsNow t).inData] := by
  have hw := inputTransaction_eq_some_iff.2 ⟨hr, hv, hready, rfl⟩
  obtain ⟨u, hu⟩ := step_completes h.invariant
  exact ⟨hw, u, hu, by rw [requests_of_step h.taken hu, hw]; rfl⟩

/-- R130: a ready consumer takes the byte on offer. -/
theorem Invariant.sends (h : Invariant t) (hr : (pinsNow t).rst = false) (hv : outValid t = some true)
    (ho : (pinsNow t).outReady = true) : ∃ b, outputTransaction t = some b ∧ outData t = some b := by
  obtain ⟨b, -, hb, -⟩ := (outValid_eq_true_iff.1 hv).pending_eq_cons h
  exact ⟨b, (if_pos ⟨hr, hv, ho⟩).trans hb, hb⟩

/-- Settles O53, field by field: R124 to R128 are read off the account of the run; R129 and R130 hold by the invariant
it keeps. -/
theorem referenceMachineMeetsContract : Obligations.ReferenceMachineMeetsContract where
  functional n s t h := by
    have hacc := h.accounted
    exact ⟨hacc.taken, hacc.sent, hacc.bytesSent_prefix, hacc.bytesSent_of_inReady⟩
  idempotent := by
    refine ⟨fun n s t v h hready hreq => ?_, fun n n' s s' t t' h h' hready hready' hreq => ?_⟩
    · rw [h.accounted.bytesSent_of_inReady hready, hreq, frames, frames, frames, List.append_nil]
    · rw [h.accounted.bytesSent_of_inReady hready, h'.accounted.bytesSent_of_inReady hready', hreq]
  backpressure :=
    ⟨fun _ _ _ _ _ _ h h' => h.accounted.bytesSent_comparable h'.accounted, fun _ _ _ _ _ => offer_kept_of_step⟩
  busy n s t h := ⟨h.accounted.busy, h.accounted.earlier⟩
  idleBehaviour n s t h := by
    refine ⟨fun hall => ?_, h.accounted.offer⟩
    have hidle := h.accounted.bytesSent_eq_iff.1 hall
    exact ⟨inReady_of_code hidle, outValid_of_code hidle⟩
  total := ⟨fun n _ hs _ => run_completes (invariant_of_idle hs) n, fun _ _ _ h => h.accounted.takes⟩
  progress := by
    refine ⟨fun n s t w h => offers_within_eleven, fun n s t h => h.accounted.invariant.sends,
      fun n m s t h hr hready => ?_, fun n m s t h hv hr ho => ?_⟩
    · obtain ⟨k, u, hk, hu, hidle⟩ := readyConsumerCompletesFrame t m h.accounted.invariant hr hready
      exact ⟨k, u, hk, hu, inReady_eq_true_iff.2 hidle⟩
    · exact ⟨_, run_of_hold (outValid_eq_true_iff.1 hv) hr ho, hv, rfl, rfl⟩

end Sys2Proof.Machine
end

/-! ## No tick stops, and which event of a tick wins (O35, O37, O30) -/

section
namespace Sys2Proof.Machine

variable {s t : State} {n : Nat}

/-- Settles O35: the decoder selects an operation, and under the invariant the operation completes. -/
theorem invariantStepNeverStops : Obligations.InvariantStepNeverStops := fun _ => step_completes

/-- R31, R32: what every tick keeps, a run of any length keeps. -/
theorem run_keeps_invariant (hinv : Invariant s) (ht : run n s = .next t) : Invariant t := by
  induction n generalizing s with
  | zero =>
    obtain rfl : s = t := by simpa using ht
    exact hinv
  | succ n ih =>
    obtain ⟨u, hu, hrest⟩ := run_succ.1 ht
    exact ih (stepKeepsInvariant s u hinv hu) hrest

/-- Settles O37: a post-reset state meets the invariant, and from it a run completes and keeps it. -/
theorem runFromPostResetNeverStops : Obligations.RunFromPostResetNeverStops := by
  intro s n hs
  have hinv : Invariant s := invariant_of_idle hs
  obtain ⟨t, ht⟩ := run_completes hinv n
  exact ⟨t, ht, run_keeps_invariant hinv ht⟩

/-- Settles O30: the operation of the tick says what it carries; a value is taken only in `IDLE` (R127), where no byte is
on offer. -/
theorem simultaneousEvents : Obligations.SimultaneousEvents := by
  intro s
  refine ⟨fun hr => ?_, fun hs hr ho _ => ?_, ?_⟩
  · have hsel : Selected .reset s := hr
    exact ⟨operation_of_rst hr, hsel.inputTransaction_eq, hsel.outputTransaction_eq⟩
  · have hsel : Selected .trailSend s := ⟨hr, hs, ho⟩
    exact ⟨operation_eq_ok_iff.2 hsel, hsel.inputTransaction_eq⟩
  · by_cases hidle : s.state = Phase.idle.code
    · exact .inr (outputTransaction_of_idle hidle)
    · exact .inl (inputTransaction_of_ne_idle hidle)

end Sys2Proof.Machine
end

/-! ## A whole request, a stall, and a reset (O49, O44, O11, O31, O33) -/

section
namespace Sys2Proof.Machine

variable {s : State} {n : Nat}

/-- Settles O49: the operations of a request, whose digits are what the `2 n + 3` ticks are counted by. -/
theorem printTakesTwoNPlusThreeTicks : Obligations.PrintTakesTwoNPlusThreeTicks := by
  intro s n hs hv hn hr ho
  obtain ⟨t, ht, hidle, htaken, hsent⟩ := performs_print hs hv hn hr ho
  have hlen : (printOperations n).length = 2 * n + 3 := length_printOperations (hn ▸ digitCount_pos _)
  obtain ⟨-, htick⟩ := ht.script_tick
  rw [hlen] at htick
  exact ⟨t, hlen ▸ ht.run_eq, hidle, htick, htaken, hsent⟩

/-- R76: with no value offered `IDLE` is kept; the tick only ends. -/
theorem step_of_idleWait (hs : PostReset s) (hr : (pinsNow s).rst = false) (hv : (pinsNow s).inValid = false) :
    step s = .next (nextTick s) :=
  step_of_selected (i := .idleWait) ⟨hr, hs, hv⟩ (exec_next.2 rfl)

/-- R175: a producer that offers nothing leaves the block idle: only the ticks go by. -/
theorem run_of_idleWait (hs : PostReset s) (hr : ResetFree n s) (hv : ∀ k, k < n → (pinsAt s k).inValid = false) :
    run n s = .next { s with tick := s.tick + n, script := s.script.drop n } := by
  induction n generalizing s with
  | zero => rfl
  | succ n ih =>
    have hstep := step_of_idleWait hs (hr 0 (Nat.succ_pos n)) (hv 0 (Nat.succ_pos n))
    have hv' : ∀ k, k < n → (pinsAt (nextTick s) k).inValid = false := fun k hk =>
      pinsAt_of_step hstep k ▸ hv _ (Nat.succ_lt_succ hk)
    have hrest := ih (s := nextTick s) hs (resetFree_of_step hr hstep) hv'
    rw [nextTick_tick, nextTick_script, List.drop_tail, Nat.add_right_comm] at hrest
    exact run_succ.2 ⟨_, hstep, hrest⟩

/-- Settles O44: each tick of a stalled or idle block only ends. -/
theorem stallsIndefinitely : Obligations.StallsIndefinitely :=
  ⟨fun _ _ => run_of_hold, fun _ _ => run_of_idleWait⟩

/-- R160: RESET writes `state` and nothing else. -/
theorem exec_reset (s : State) : exec .reset s = .next (goto .idle s) := rfl

/-- R160: whatever the state, a tick with `rst = 1` leads to `IDLE`. -/
theorem step_of_rst (hr : (pinsNow s).rst = true) : step s = .next (nextTick (goto .idle s)) :=
  step_of_selected (i := .reset) hr (exec_reset s)

/-- R161: a tick with `rst = 1` carries no transaction. -/
theorem no_transactions_of_rst (hr : (pinsNow s).rst = true) :
    inputTransaction s = none ∧ outputTransaction s = none := by
  have hsel : Selected .reset s := hr
  exact ⟨hsel.inputTransaction_eq, hsel.outputTransaction_eq⟩

/-- Settles O11: RESET is selected by `rst` alone. -/
theorem resetOperation : Obligations.ResetOperation := by
  refine ⟨exec_reset, fun s hr => ?_⟩
  obtain ⟨hin, hout⟩ := no_transactions_of_rst hr
  exact ⟨operation_of_rst hr, hin, hout, step_of_rst hr⟩

/-- Settles O31: RESET records nothing, and in `IDLE` the block is ready and offers no byte. -/
theorem resetAbandonsTheFrame : Obligations.ResetAbandonsTheFrame := by
  intro s hr
  obtain ⟨hin, hout⟩ := no_transactions_of_rst hr
  have hidle : (nextTick (goto .idle s)).state = Phase.idle.code := rfl
  exact ⟨hin, hout, _, step_of_rst hr, rfl, rfl, outValid_of_code hidle, outData_of_idle hidle, inReady_of_code hidle⟩

/-- R163: the operations a post-reset state can select, by `rst` and `in_valid`. -/
theorem operation_of_postReset (hs : PostReset s) :
    operation s = .ok .idleWait ∨ operation s = .ok .accept ∨ operation s = .ok .reset := by
  simp only [operation_eq_ok_iff]
  cases hr : (pinsNow s).rst
  case true => exact .inr (.inr hr)
  case false =>
    cases hv : (pinsNow s).inValid
    case false => exact .inl ⟨hr, hs, hv⟩
    case true => exact .inr (.inl ⟨hr, hs, hv⟩)

/-- Settles O33: `IDLE` asks nothing of the other registers. -/
theorem postResetStates : Obligations.PostResetStates := fun _ hs =>
  ⟨invariant_of_idle hs, inReady_of_code hs, outValid_of_code hs, operation_of_postReset hs⟩

end Sys2Proof.Machine
end
